-- ==== Sys2Proof/Word.lean ====
section
/-! DEFINITION. The word types of the block (00_scope.md R7, R9): all values are unsigned bit vectors. -/

namespace Sys2Proof

/-- One byte of the frame buffer (R50). -/
abbrev Byte := BitVec 8

/-- The width of CRC, D and RES (R21, R22, R23). -/
abbrev Half := BitVec 16

/-- A command word, and the width of every host register (R80, R26). -/
abbrev Word := BitVec 32

end Sys2Proof
end

