-- ==== Sys2Proof/Syntax.lean ====
section
/-! DEFINITION. The commands: one constructor per row of spec/opcode_table.json, in the table's order, with the operands
that 30_encoding.md R82 assembles. -/

namespace Sys2Proof

/-- The frame selector (R82): which frame image a frame command works on. -/
inductive Frame where
  /-- Selector 0, the Output frame. -/
  | out
  /-- Selector 1, the Input frame. -/
  | inp
  deriving DecidableEq, Repr

/-- A command (R10, R83, R84). Fields of the word are bit vectors of their own width; `width` is the field width
itself, 1 to 16, which the word codes minus one (R82). -/
inductive Instr where
  /-- NOP (R140). -/
  | nop
  /-- CRC.INIT (R112). -/
  | crcInit
  /-- SCLR (R141). -/
  | sclr
  /-- MOVRD (R142). -/
  | movrd
  /-- MOVCR (R143). -/
  | movcr
  /-- CRC.BYTE (R113). -/
  | crcByte (imm8 : BitVec 8)
  /-- CRC.MEM (R114). -/
  | crcMem (a : BitVec 8)
  /-- CRC.BLK (R115). -/
  | crcBlk (a : BitVec 8) (len : BitVec 9)
  /-- CRC.SEG (R116). -/
  | crcSeg (a : BitVec 8) (len : BitVec 9)
  /-- CRC.STORE (R117). -/
  | crcStore (a : BitVec 8)
  /-- CRC.CHECK (R118). -/
  | crcCheck (a : BitVec 8)
  /-- LDI (R145). -/
  | ldi (imm16 : BitVec 16)
  /-- BF.RD (R162); `bit` is the stream bit address s. -/
  | bfRd (bit : BitVec 11) (width : Nat)
  /-- BF.WR (R163); `bit` is the stream bit address s. -/
  | bfWr (bit : BitVec 11) (width : Nat)
  /-- LE.RD (R164). -/
  | leRd (a : BitVec 8) (width : Nat)
  /-- LE.WR (R165). -/
  | leWr (a : BitVec 8) (width : Nat)
  /-- FLD.RD (R198). -/
  | fldRd (id : BitVec 7)
  /-- FLD.WR (R199). -/
  | fldWr (id : BitVec 7)
  /-- FR.STAMP (R231). -/
  | frStamp (f : Frame)
  /-- FR.CHECK (R232). -/
  | frCheck (f : Frame)
  deriving DecidableEq, Repr

end Sys2Proof
end

