-- ==== Sys2Proof/WellFormed.lean ====
section
/-! DEFINITION. Which terms of `Instr` a command word can stand for. Only the field width can be out of its range: the
other operands have the width of their field in the word. -/

namespace Sys2Proof

/-- Widths are 1-16; a zero width is unencodable (R82). -/
def widthOk (width : Nat) : Bool := decide (1 ≤ width ∧ width ≤ 16)

/-- The check itself: every command's operands fit the fields of its word (R82, R85). -/
def Instr.wellFormed (i : Instr) : Bool :=
  match i with
  | .nop => true
  | .crcInit => true
  | .sclr => true
  | .movrd => true
  | .movcr => true
  | .crcByte _ => true
  | .crcMem _ => true
  | .crcBlk _ _ => true
  | .crcSeg _ _ => true
  | .crcStore _ => true
  | .crcCheck _ => true
  | .ldi _ => true
  | .bfRd _ width => widthOk width
  | .bfWr _ width => widthOk width
  | .leRd _ width => widthOk width
  | .leWr _ width => widthOk width
  | .fldRd _ => true
  | .fldWr _ => true
  | .frStamp _ => true
  | .frCheck _ => true

/-- A command that some word encodes. -/
abbrev Instr.WellFormed (i : Instr) : Prop := i.wellFormed = true

end Sys2Proof
end

