-- ==== Sys2Proof/Decode.lean ====
section
/-! DEFINITION. The command words (30_encoding.md): the decoder, total on 32-bit words and rejecting by name, and the
encoder. Both are written from the bit layouts of R81. -/

namespace Sys2Proof

/-- Why a word is ILLEGAL (R85). -/
inductive Illegal where
  /-- (a): a reserved-zero bit of the word's format is 1. -/
  | reservedBit
  /-- (b): the SYS group with func 0x5-0xF (R84, R144). -/
  | reservedFunc
  deriving DecidableEq, Repr

/-- Accepts `i` when the `len` reserved bits from bit `lo` up are all zero (R81, R85 (a)). -/
def whenZero (w : Word) (lo len : Nat) (i : Instr) : Except Illegal Instr :=
  if w.extractLsb' lo len = 0 then .ok i else .error .reservedBit

/-- The field width of a word: its 4-bit code from bit `lo` up, plus one (R82). -/
def widthField (w : Word) (lo : Nat) : Nat := (w.extractLsb' lo 4).toNat + 1

/-- The frame a selector bit names (R82). -/
def frameOfBit (b : Bool) : Frame := if b then .inp else .out

/-- The selector bit of a frame (R82). -/
def frameBit (f : Frame) : BitVec 1 :=
  match f with
  | .out => 0#1
  | .inp => 1#1

/-- The function map of the SYS group (R84); 0x5-0xF are reserved. -/
def sysFunc (func : BitVec 4) : Except Illegal Instr :=
  match func with
  | 0x0#4 => .ok .nop
  | 0x1#4 => .ok .crcInit
  | 0x2#4 => .ok .sclr
  | 0x3#4 => .ok .movrd
  | 0x4#4 => .ok .movcr
  | _ => .error .reservedFunc

/-- Format S (R81): bits 27..4 reserved, func in bits 3..0. -/
def decodeSys (w : Word) : Except Illegal Instr :=
  if w.extractLsb' 4 24 = 0 then sysFunc (w.extractLsb' 0 4) else .error .reservedBit

/-- The opcode map (R83): bits 31, 30, 29, 28 select the format; every opcode is assigned. -/
def decodeOpcode (b31 b30 b29 b28 : Bool) (w : Word) : Except Illegal Instr :=
  match b31, b30, b29, b28 with
  | false, false, false, false => decodeSys w
  | false, false, false, true => whenZero w 8 20 (.crcByte (w.extractLsb' 0 8))
  | false, false, true, false => whenZero w 8 20 (.crcMem (w.extractLsb' 0 8))
  | false, false, true, true => whenZero w 17 11 (.crcBlk (w.extractLsb' 0 8) (w.extractLsb' 8 9))
  | false, true, false, false => whenZero w 17 11 (.crcSeg (w.extractLsb' 0 8) (w.extractLsb' 8 9))
  | false, true, false, true => whenZero w 8 20 (.crcStore (w.extractLsb' 0 8))
  | false, true, true, false => whenZero w 8 20 (.crcCheck (w.extractLsb' 0 8))
  | false, true, true, true => whenZero w 16 12 (.ldi (w.extractLsb' 0 16))
  | true, false, false, false => whenZero w 15 13 (.bfRd (w.extractLsb' 0 11) (widthField w 11))
  | true, false, false, true => whenZero w 15 13 (.bfWr (w.extractLsb' 0 11) (widthField w 11))
  | true, false, true, false => whenZero w 12 16 (.leRd (w.extractLsb' 0 8) (widthField w 8))
  | true, false, true, true => whenZero w 12 16 (.leWr (w.extractLsb' 0 8) (widthField w 8))
  | true, true, false, false => whenZero w 7 21 (.fldRd (w.extractLsb' 0 7))
  | true, true, false, true => whenZero w 7 21 (.fldWr (w.extractLsb' 0 7))
  | true, true, true, false => whenZero w 1 27 (.frStamp (frameOfBit (w.getLsbD 0)))
  | true, true, true, true => whenZero w 1 27 (.frCheck (frameOfBit (w.getLsbD 0)))

/-- The decoder (R86 steps 1 and 2), total on 32-bit words. -/
def decode (w : Word) : Except Illegal Instr :=
  decodeOpcode (w.getLsbD 31) (w.getLsbD 30) (w.getLsbD 29) (w.getLsbD 28) w

/-- The 4-bit code of a field width (R82). -/
def widthCode (width : Nat) : BitVec 4 := BitVec.ofNat 4 (width - 1)

/-- The encoder: the layouts of R81, bit 31 first. -/
def encode (i : Instr) : Word :=
  match i with
  | .nop => 0x0#4 ++ 0#24 ++ 0x0#4
  | .crcInit => 0x0#4 ++ 0#24 ++ 0x1#4
  | .sclr => 0x0#4 ++ 0#24 ++ 0x2#4
  | .movrd => 0x0#4 ++ 0#24 ++ 0x3#4
  | .movcr => 0x0#4 ++ 0#24 ++ 0x4#4
  | .crcByte imm8 => 0x1#4 ++ 0#20 ++ imm8
  | .crcMem a => 0x2#4 ++ 0#20 ++ a
  | .crcBlk a len => 0x3#4 ++ 0#11 ++ len ++ a
  | .crcSeg a len => 0x4#4 ++ 0#11 ++ len ++ a
  | .crcStore a => 0x5#4 ++ 0#20 ++ a
  | .crcCheck a => 0x6#4 ++ 0#20 ++ a
  | .ldi imm16 => 0x7#4 ++ 0#12 ++ imm16
  | .bfRd bit width => 0x8#4 ++ 0#13 ++ widthCode width ++ bit
  | .bfWr bit width => 0x9#4 ++ 0#13 ++ widthCode width ++ bit
  | .leRd a width => 0xA#4 ++ 0#16 ++ widthCode width ++ a
  | .leWr a width => 0xB#4 ++ 0#16 ++ widthCode width ++ a
  | .fldRd id => 0xC#4 ++ 0#21 ++ id
  | .fldWr id => 0xD#4 ++ 0#21 ++ id
  | .frStamp f => 0xE#4 ++ 0#27 ++ frameBit f
  | .frCheck f => 0xF#4 ++ 0#27 ++ frameBit f

/-- The instruction of an opcode-table word: commands are 32 bits and have no byte order (R57, R80); bits above
`nbits` are zero, and a word of more than 32 bits is no command (log 16). -/
def decodeTableWord (nbits w : Nat) : Option Instr :=
  if nbits ≤ 32 then
    match decode (BitVec.ofNat 32 (w % 2 ^ nbits)) with
    | .ok i => some i
    | .error _ => none
  else none

end Sys2Proof
end

