-- ==== Sys2Proof/Config.lean ====
section
/-! DEFINITION. What one build of the block fixes (00_scope.md R4): its constants, its two parameters, the types of
its read-only tables, and the free value that stands for the frame buffer's unspecified contents after reset. -/

namespace Sys2Proof.Config

/-- `CRC_INIT` (R4, R111). -/
def crcInit : Half := 0xFFFF#16

/-- `CRC_POLY_REFLECTED` (R4, R110). -/
def crcPoly : Half := 0xA001#16

/-- `FB_SIZE` (R4, R50). -/
def fbSize : Nat := 256

/-- Stream bits in FB: 8 · FB_SIZE (R8). -/
def fbBits : Nat := 2048

/-- `HDR_LEN` (R4, R52). -/
def hdrLen : Nat := 7

/-- `DATA_LEN` (R4, R52). -/
def dataLen : Nat := 100

/-- `FRAME_LEN` (R4, R52). -/
def frameLen : Nat := 111

/-- `RETAIN_LEN` (R4, R53, R54). -/
def retainLen : Nat := 64

/-- `DAC_FRAME_LEN` (R4, R55). -/
def dacFrameLen : Nat := 2

/-- `OUT_BASE` (R4, R51). -/
def outBase : Nat := 0x00

/-- `IN_BASE` (R4, R51). -/
def inBase : Nat := 0x80

/-- `DAC_BASE` (R4, R51). -/
def dacBase : Nat := 0xF0

/-- `N_FIELDS` (R4, R190). -/
def nFields : Nat := 69

/-- The constant of the ID register (R29). -/
def idValue : Word := 0x4C430100#32

/-- The values of the parameter `PWM_GAP_BIT` (R4, R195): which bit of a PWM control byte is unused. -/
inductive PwmGapBit where
  /-- `PWM_GAP_BIT` = 2, the default: the mode is in bits 1-0. -/
  | two
  /-- `PWM_GAP_BIT` = 0: the mode is in bits 2-1. -/
  | zero
  deriving DecidableEq, Repr

/-- The values of the parameter `DAC_LAYOUT` (R4, R55, R194). -/
inductive DacLayout where
  /-- `CONTIGUOUS`, the default. -/
  | contiguous
  /-- `MCP48X2`. -/
  | mcp48x2
  deriving DecidableEq, Repr

/-- The parameters of one build of the block (R2, R4). -/
structure Params where
  pwmGapBit : PwmGapBit
  dacLayout : DacLayout
  deriving DecidableEq, Repr

/-- The defaults of both parameters (R2, R4). -/
def defaultParams : Params := { pwmGapBit := .two, dacLayout := .contiguous }

/-- How a schema entry addresses its field (R190, R191). -/
inductive FieldKind where
  /-- The MSB-first bit stream; the operand is a stream bit address. -/
  | bf
  /-- The little-endian bit vector; the operand is a byte address. -/
  | le
  deriving DecidableEq, Repr

/-- The three enum tables (R196). -/
inductive EnumTable where
  | errcode
  | watchdog
  | pwmmode
  deriving DecidableEq, Repr

/-- One entry of the schema ROM (R190); `enum` is `none` for a field that has no enum table. -/
structure FieldEntry where
  kind : FieldKind
  operand : Nat
  width : Nat
  enum : Option EnumTable
  deriving DecidableEq, Repr

/-- FREE VALUE (log 1). The byte that FB holds at `address` after the `reset`-th reset while nothing has written it:
"each byte an arbitrary value (a draw)" (R35, R280). No body: nothing can be proved of its value. -/
opaque fbDraw (reset address : Nat) : Byte

end Sys2Proof.Config
end

