-- ==== Sys2Proof/Machine/State.lean ====
section
/-! DEFINITION. The state of the block (10_state.md), with the host side of its bus, and its state after reset. -/

namespace Sys2Proof.Machine

/-- FB as the bytes that something has written since reset: (address, byte) pairs, addresses strictly rising (R50). An
address that is not listed holds no written byte; what a read of it gives is `readByte`'s business (log 1). -/
abbrev Memory := List Host.Cell

/-- One operation of the host on the block (R26, R56, R280). -/
inductive HostOp where
  /-- A bus read of `bits` bits at byte offset `offset` of the aperture. -/
  | read (bits offset : Nat)
  /-- A bus write of `bits` bits at byte offset `offset`; the low `bits` bits of `data` are what it writes (log 10). -/
  | write (bits offset : Nat) (data : Word)
  /-- The reset input is asserted (R280). -/
  | reset
  deriving DecidableEq, Repr

/-- What the bus answers to an access (R56). -/
inductive Response where
  /-- No access has been answered since reset (log 6). -/
  | noAccess
  /-- A write completed without error. -/
  | okay
  /-- A 32-bit read completed with this word. -/
  | word (v : Word)
  /-- An 8-bit read completed with this byte. -/
  | byte (v : Byte)
  /-- The bus error response: no data, no change of state. -/
  | slverr
  deriving DecidableEq, Repr

/-- Why the machine could stop. Nothing does: ILLEGAL, RANGE and BAD_FIELD are entries into the halted state, which
is a next state (R252), and SLVERR is a bus response (R251). The type has no constructor, so that no step can end in a
fault (log 11). -/
inductive Fault where
  deriving DecidableEq, Repr

/-- Why a step could have no meaning. -/
inductive Refusal where
  /-- A command of the opcode table that the model gives no meaning: raised by `exec`'s arm of that command alone. No
  arm raises it. Safe: the run stops. -/
  | notModelled (mnemonic : String)
  deriving DecidableEq, Repr

/-- The state of the block (R20) and of the bus before it. The ID register, the schema ROM and the enum tables are
constants (R29, R33), and CMD is a port without state (R31): they have no field (log 13). -/
structure State where
  /-- CRC, the running CRC value (R21). -/
  crc : Half
  /-- D, the data register (R22). -/
  d : Half
  /-- RES, the result register (R23). -/
  res : Half
  /-- STATUS (R27). -/
  status : Word
  /-- CAUSE (R28). -/
  cause : Word
  /-- FCMD (R30). -/
  fcmd : Word
  /-- FB, the frame buffer (R50). -/
  fb : Memory
  /-- The model's own: the parameters of this build (R2, R4, R20), which nothing writes (log 3). -/
  params : Config.Params
  /-- The model's own: how many resets have been taken, which selects FB's draws (R280; log 2). -/
  resets : Nat
  /-- The model's own: the host's operations not yet taken, oldest first (R25, R65; log 4). -/
  pending : List HostOp
  /-- The model's own: the bus's answer to the last access taken (R56; log 6). -/
  response : Response
  deriving DecidableEq, Repr

/-- The block right after reset (R35, R280): nothing of FB written, the parameters at their defaults (R2). -/
def State.reset : State :=
  { crc := 0xFFFF#16
    d := 0x0000#16
    res := 0x0000#16
    status := 0x00000000#32
    cause := 0x00000000#32
    fcmd := 0x00000000#32
    fb := []
    params := Config.defaultParams
    resets := 0
    pending := []
    response := .noAccess }

/-- What a meaning answers. -/
abbrev Result := Host.Outcome State Fault Refusal

end Sys2Proof.Machine
end

