-- ==== Sys2Proof/Machine/Flags.lean ====
section
/-! DEFINITION. STATUS, CAUSE and every flag computation the spec gives (10_state.md R27, R28; 42_bitfield.md R160;
43_field_schema.md R196, R197). -/

namespace Sys2Proof.Machine

/-- `x` with bit `k` set to `b` and every other bit kept (R9, BitWrite). -/
def writeBit {n : Nat} (x : BitVec n) (k : Nat) (b : Bool) : BitVec n :=
  if b then x ||| BitVec.twoPow n k else x &&& ~~~ BitVec.twoPow n k

/-- The fields of STATUS (R27). -/
inductive StatusBit where
  | fault
  | hcrcErr
  | dcrcErr
  | mismatch
  | eerr
  | ovf
  deriving DecidableEq, Repr

/-- The place of a field in STATUS (R27). -/
def StatusBit.pos (b : StatusBit) : Nat :=
  match b with
  | .fault => 0
  | .hcrcErr => 1
  | .dcrcErr => 2
  | .mismatch => 3
  | .eerr => 4
  | .ovf => 5

/-- Reads one field of STATUS. -/
def statusBit (b : StatusBit) (s : State) : Bool := s.status.getLsbD b.pos

/-- `STATUS.b <- v`: one field, the rest of STATUS kept. -/
def setStatusBit (b : StatusBit) (v : Bool) (s : State) : State :=
  { s with status := writeBit s.status b.pos v }

/-- `if v then STATUS.b <- 1`: the sticky flags (R27, EERR and OVF) are set and never cleared by a command but SCLR. -/
def raiseFlag (b : StatusBit) (v : Bool) (s : State) : State :=
  if v then setStatusBit b true s else s

/-- The halted state (R254): STATUS.FAULT = 1. -/
def halted (s : State) : Bool := statusBit .fault s

/-- The bits of STATUS that a host write of 1 clears: EERR and OVF (R27). -/
def statusW1cMask : Word := 0x00000030#32

/-- A host write of `data` to STATUS (R27): ones at bits 4 and 5 clear them, everything else is ignored. -/
def clearStatusW1c (data : Word) (s : State) : State :=
  { s with status := s.status &&& ~~~ (data &&& statusW1cMask) }

/-- The fault causes (R250). -/
inductive Cause where
  | illegal
  | range
  | badField
  deriving DecidableEq, Repr

/-- The code of a cause in CAUSE (R28, R250). -/
def Cause.code (c : Cause) : Word :=
  match c with
  | .illegal => 1#32
  | .range => 2#32
  | .badField => 3#32

/-- Overflow of a write of width `w` (R160): `w < 16` and `D[15:w] ≠ 0`. -/
def overflows (w : Nat) (d : Half) : Bool := decide (w < 16) && decide (d >>> w ≠ 0#16)

/-- The valid codes of an enum table (R196). ERRCODE: 0 NoError, 2 data CRC error, 3 data block too short, 4 model
mismatch, 5 header CRC error, 6 SPIFrequencyTooHigh. WATCHDOG: 0 off, 1-10 the ladder. PWMMODE: 0 Servo, 1 DutyCycle,
2 Universal, 3 Frequency. -/
def enumCodes (e : Config.EnumTable) : List Nat :=
  match e with
  | .errcode => [0, 2, 3, 4, 5, 6]
  | .watchdog => [0, 1, 2, 3, 4, 5, 6, 7, 8, 9, 10]
  | .pwmmode => [0, 1, 2, 3]

/-- `e ≠ none and v ∉ ENUM[e]` (R198, R199): the code `v` is unmapped. -/
def unmapped (e : Option Config.EnumTable) (v : Nat) : Bool :=
  match e with
  | none => false
  | some t => !(enumCodes t).contains v

end Sys2Proof.Machine
end

