-- ==== Sys2Proof/Machine/Ops.lean ====
section
/-! DEFINITION. The named operations of the rules (00_scope.md R9): FB by byte, by stream bit and by little-endian bit
vector; the CRC algorithm (40_crc.md R110, R111); fault entry and reset (60_exceptions.md R252, 70_reset R280). -/

namespace Sys2Proof.Machine

/-! ### FB as a list of written bytes -/

/-- The byte written at `a`, if any. -/
def Memory.lookup (m : Memory) (a : Nat) : Option Byte :=
  match m with
  | [] => none
  | (b, v) :: rest => if a = b then some v else Memory.lookup rest a

/-- Writes `v` at `a`, keeping the addresses strictly rising. -/
def Memory.write (m : Memory) (a : Nat) (v : Byte) : Memory :=
  match m with
  | [] => [(a, v)]
  | (b, u) :: rest =>
    if a < b then (a, v) :: (b, u) :: rest
    else if a = b then (a, v) :: rest
    else (b, u) :: Memory.write rest a v

/-- Addresses strictly rising, each at least `lo` and inside FB. -/
def Memory.wfFrom (lo : Nat) (m : Memory) : Bool :=
  match m with
  | [] => true
  | (a, _) :: rest => decide (lo ≤ a) && decide (a < Config.fbSize) && Memory.wfFrom (a + 1) rest

/-- The canonical form of FB: addresses strictly rising and inside FB (R50). An unlisted address holds no written byte,
so no entry equals what an unlisted address holds. -/
def Memory.wf (m : Memory) : Bool := Memory.wfFrom 0 m

/-! ### FB by byte (R9) -/

/-- `FB[a]`. A byte that nothing has written since reset is the free value of this reset (R35; log 1). -/
def readByte (s : State) (a : Nat) : Byte :=
  match Memory.lookup s.fb a with
  | some v => v
  | none => Config.fbDraw s.resets a

/-- `FB[a] <- v`. -/
def writeByte (a : Nat) (v : Byte) (s : State) : State :=
  { s with fb := Memory.write s.fb a v }

/-- `MemRead(a, 2)`: little-endian (R9, R57). -/
def memRead2 (s : State) (a : Nat) : Half := readByte s (a + 1) ++ readByte s a

/-- `MemWrite(a, 2, v)`: little-endian (R9, R57). -/
def memWrite2 (a : Nat) (v : Half) (s : State) : State :=
  writeByte (a + 1) (v.extractLsb' 8 8) (writeByte a (v.extractLsb' 0 8) s)

/-- The bytes `FB[a], FB[a+1], ..., FB[a+n-1]`. -/
def fbBytes (s : State) (a n : Nat) : List Byte :=
  match n with
  | 0 => []
  | k + 1 => readByte s a :: fbBytes s (a + 1) k

/-! ### FB as a stream of bits, most significant bit of each byte first (R8, R9) -/

/-- `BitRead(i)`. -/
def bitRead (s : State) (i : Nat) : Bool := (readByte s (i / 8)).getLsbD (7 - i % 8)

/-- `BitWrite(i, b)`. -/
def bitWrite (i : Nat) (b : Bool) (s : State) : State :=
  writeByte (i / 8) (writeBit (readByte s (i / 8)) (7 - i % 8) b) s

/-- `BFRead(i, w)`: `BitRead(i) ++ BitRead(i+1) ++ ... ++ BitRead(i+w-1)`. -/
def bfRead (s : State) (i : Nat) : (w : Nat) → BitVec w
  | 0 => 0#0
  | k + 1 => (bfRead s i k).concat (bitRead s (i + k))

/-- The first `n` of `BFWrite(i, w, v)`'s bit writes. -/
def bfWriteBits (i : Nat) {w : Nat} (v : BitVec w) (n : Nat) (s : State) : State :=
  match n with
  | 0 => s
  | k + 1 => bitWrite (i + k) (v.getLsbD (w - 1 - k)) (bfWriteBits i v k s)

/-- `BFWrite(i, w, v)`: for k in 0..w-1, `BitWrite(i+k, v[w-1-k])`. -/
def bfWrite (i : Nat) {w : Nat} (v : BitVec w) (s : State) : State := bfWriteBits i v w s

/-! ### FB as little-endian bit vectors (R9) -/

/-- Bit `k` of the little-endian bit vector at byte `a`: `FB[a + k div 8][k mod 8]`. -/
def leBit (s : State) (a k : Nat) : Bool := (readByte s (a + k / 8)).getLsbD (k % 8)

/-- `LERead(a, w)`. -/
def leRead (s : State) (a : Nat) : (w : Nat) → BitVec w
  | 0 => 0#0
  | k + 1 => (leRead s a k).cons (leBit s a k)

/-- The first `n` of `LEWrite(a, w, v)`'s bit writes. -/
def leWriteBits (a : Nat) {w : Nat} (v : BitVec w) (n : Nat) (s : State) : State :=
  match n with
  | 0 => s
  | k + 1 =>
    let t := leWriteBits a v k s
    writeByte (a + k / 8) (writeBit (readByte t (a + k / 8)) (k % 8) (v.getLsbD k)) t

/-- `LEWrite(a, w, v)`: for k in 0..w-1, bit (k mod 8) of `FB[a + k div 8]` becomes `v[k]`. -/
def leWrite (a : Nat) {w : Nat} (v : BitVec w) (s : State) : State := leWriteBits a v w s

/-! ### The CRC algorithm -/

/-- One of the 8 iterations of `crcStep` (R110): a logical right shift, and XOR with 0xA001 if the low bit was set. -/
def crcShift (c : Half) : Half := if c.getLsbD 0 then (c >>> 1) ^^^ Config.crcPoly else c >>> 1

/-- `n` iterations. -/
def crcShifts (n : Nat) (c : Half) : Half :=
  match n with
  | 0 => c
  | k + 1 => crcShifts k (crcShift c)

/-- `crcStep(c, b)` (R110): `c <- c XOR zext(b)`, then 8 iterations. The byte stands first in the XOR so that a kernel
that unfolds the fold of a whole segment stops at its last byte. -/
def crcStep (c : Half) (b : Byte) : Half := crcShifts 8 (b.setWidth 16 ^^^ c)

/-- `crc16(bytes, c0)` (R111): the left fold of `crcStep`. -/
def crc16 (bytes : List Byte) (c0 : Half) : Half :=
  match bytes with
  | [] => c0
  | b :: rest => crc16 rest (crcStep c0 b)

/-! ### Taking a fault, and the one way out of it -/

/-- Fault entry (R252): STATUS.FAULT <- 1, CAUSE <- cause, FCMD <- word, and nothing else. -/
def raiseFault (c : Cause) (word : Word) (s : State) : State :=
  { setStatusBit .fault true s with cause := c.code, fcmd := word }

/-- The reset input (R280, R255): the only way out of the halted state. Every register takes its value of R35 and FB new
unspecified contents; the build's parameters and what the host has still to issue are no state of the block (log 7). -/
def takeReset (s : State) : State :=
  { State.reset with params := s.params, resets := s.resets + 1, pending := s.pending }

/-- A command whose FB range check has the outcome `ok` (R86 step 4, R60): it goes to `t`, or raises RANGE with its own
word in FCMD and none of its effects (log 8). -/
def ifInRange (ok : Bool) (i : Instr) (s t : State) : Result :=
  if ok then .next t else .next (raiseFault .range (encode i) s)

end Sys2Proof.Machine
end

