-- ==== Sys2Proof/Machine/Operands.lean ====
section
/-! DEFINITION. The operand forms: range checks (20_memory.md R60, 42_bitfield.md R161), field widths and write values
(R82, R160), and the segments of a frame (44_frame.md R230). -/

namespace Sys2Proof.Machine

/-- FB bytes a..a+n-1 are inside FB (R60); the sum is an unbounded natural (R146). -/
def bytesInRange (a n : Nat) : Bool := decide (a + n ≤ Config.fbSize)

/-- Stream bits i..i+w-1 are inside FB (R60, R161). -/
def bitsInRange (i w : Nat) : Bool := decide (i + w ≤ Config.fbBits)

/-- The bytes an LE access of width `w` covers (R82, R161). -/
def nbytes (w : Nat) : Nat := if w ≤ 8 then 1 else 2

/-- The value of a write of width `w` (R160): `D[w-1:0]`. -/
def writeValue (w : Nat) (s : State) : BitVec w := s.d.setWidth w

/-- The FB address of a frame's first byte: `0x80 · f` (R230). -/
def frameBase (f : Frame) : Nat :=
  match f with
  | .out => Config.outBase
  | .inp => Config.inBase

/-- The FB address of a frame's stored header CRC: `base + 7` (R230). -/
def headerCrcAt (f : Frame) : Nat := frameBase f + Config.hdrLen

/-- The FB address of a frame's data segment: `base + 9` (R230). -/
def dataAt (f : Frame) : Nat := frameBase f + Config.hdrLen + 2

/-- The FB address of a frame's stored data CRC: `base + 109` (R230). -/
def dataCrcAt (f : Frame) : Nat := frameBase f + Config.hdrLen + 2 + Config.dataLen

/-- `hcalc(f)` (R230): the CRC of the header segment alone. -/
def headerCrc (s : State) (f : Frame) : Half := crc16 (fbBytes s (frameBase f) Config.hdrLen) Config.crcInit

/-- `dcalc(f)` (R230): the CRC of the data segment alone. -/
def dataCrc (s : State) (f : Frame) : Half := crc16 (fbBytes s (dataAt f) Config.dataLen) Config.crcInit

end Sys2Proof.Machine
end

