-- ==== Sys2Proof/Machine/BitField.lean ====
section
/-! DEFINITION. The generic bit-field commands (42_bitfield.md). -/

namespace Sys2Proof.Machine

/-- BF.RD (R162): `RES <- zext_16(BFRead(s, w))`. -/
def execBfRd (bit : BitVec 11) (width : Nat) (s : State) : Result :=
  ifInRange (bitsInRange bit.toNat width) (.bfRd bit width) s
    { s with res := (bfRead s bit.toNat width).setWidth 16 }

/-- BF.WR (R163): `BFWrite(s, w, D[w-1:0])`, OVF if D is wider (R160). -/
def execBfWr (bit : BitVec 11) (width : Nat) (s : State) : Result :=
  ifInRange (bitsInRange bit.toNat width) (.bfWr bit width) s
    (bfWrite bit.toNat (writeValue width s) (raiseFlag .ovf (overflows width s.d) s))

/-- LE.RD (R164): `RES <- zext_16(LERead(a, w))`. -/
def execLeRd (a : BitVec 8) (width : Nat) (s : State) : Result :=
  ifInRange (bytesInRange a.toNat (nbytes width)) (.leRd a width) s
    { s with res := (leRead s a.toNat width).setWidth 16 }

/-- LE.WR (R165): `LEWrite(a, w, D[w-1:0])`, OVF if D is wider (R160). -/
def execLeWr (a : BitVec 8) (width : Nat) (s : State) : Result :=
  ifInRange (bytesInRange a.toNat (nbytes width)) (.leWr a width) s
    (leWrite a.toNat (writeValue width s) (raiseFlag .ovf (overflows width s.d) s))

end Sys2Proof.Machine
end

