-- ==== Sys2Proof/Machine/Crc.lean ====
section
/-! DEFINITION. The CRC family (40_crc.md). -/

namespace Sys2Proof.Machine

/-- CRC.BYTE (R113): `CRC <- crcStep(CRC, imm8)`. -/
def execCrcByte (imm8 : BitVec 8) (s : State) : Result := .next { s with crc := crcStep s.crc imm8 }

/-- CRC.MEM (R114): `CRC <- crcStep(CRC, FB[a])`; every byte address is in range. -/
def execCrcMem (a : BitVec 8) (s : State) : Result := .next { s with crc := crcStep s.crc (readByte s a.toNat) }

/-- CRC.BLK (R115): folds FB[a..a+len-1] into CRC, from its current value. -/
def execCrcBlk (a : BitVec 8) (len : BitVec 9) (s : State) : Result :=
  ifInRange (bytesInRange a.toNat len.toNat) (.crcBlk a len) s
    { s with crc := crc16 (fbBytes s a.toNat len.toNat) s.crc }

/-- CRC.SEG (R116): `CRC <- crc16(FB[a..a+len-1]; 0xFFFF)`, and RES <- the new CRC. -/
def execCrcSeg (a : BitVec 8) (len : BitVec 9) (s : State) : Result :=
  ifInRange (bytesInRange a.toNat len.toNat) (.crcSeg a len) s
    { s with
      crc := crc16 (fbBytes s a.toNat len.toNat) Config.crcInit
      res := crc16 (fbBytes s a.toNat len.toNat) Config.crcInit }

/-- CRC.STORE (R117): `MemWrite(a, 2, CRC)`. -/
def execCrcStore (a : BitVec 8) (s : State) : Result :=
  ifInRange (bytesInRange a.toNat 2) (.crcStore a) s (memWrite2 a.toNat s.crc s)

/-- CRC.CHECK (R118): `RES <- MemRead(a, 2)`, and MISMATCH says whether it differs from CRC. -/
def execCrcCheck (a : BitVec 8) (s : State) : Result :=
  ifInRange (bytesInRange a.toNat 2) (.crcCheck a) s
    (setStatusBit .mismatch (decide (memRead2 s a.toNat ≠ s.crc)) { s with res := memRead2 s a.toNat })

end Sys2Proof.Machine
end

