-- ==== Sys2Proof/Machine/Schema.lean ====
section
/-! DEFINITION. The schema ROM (43_field_schema.md R190-R195): 69 fields of the three frame images, by id, and the
reading and writing of one entry's field. -/

namespace Sys2Proof.Machine

open Config (FieldEntry EnumTable Params)

/-- An LE entry without enum table. -/
def leField (a width : Nat) : FieldEntry := { kind := .le, operand := a, width := width, enum := none }

/-- A BF entry without enum table. -/
def bfField (i width : Nat) : FieldEntry := { kind := .bf, operand := i, width := width, enum := none }

/-- An entry with an enum table. -/
def FieldEntry.coded (f : FieldEntry) (e : EnumTable) : FieldEntry := { f with enum := some e }

/-- Ids 0-6 (R192): OUT.MAGIC, OUT.WATCHDOG, OUT.SYS.PULLUP_EN, LED_DIS, RETAIN_EN, RETAIN_COPY, SAFE. -/
def outHeaderFields : List FieldEntry :=
  [leField 0x00 8, FieldEntry.coded (leField 0x02 8) .watchdog, bfField 27 1, bfField 28 1, bfField 29 1,
    bfField 30 1, bfField 31 1]

/-- Ids 7-20 (R192): OUT.DDEB0 to OUT.DDEB7, DOUT, RELAY, GPIO_CTRL, GPIO_OUT, GDEB0, GDEB1. -/
def outDigitalFields : List FieldEntry :=
  [leField 0x09 8, leField 0x0A 8, leField 0x0B 8, leField 0x0C 8, leField 0x0D 8, leField 0x0E 8, leField 0x0F 8,
    leField 0x10 8, leField 0x11 12, leField 0x13 4, leField 0x14 8, leField 0x15 4, leField 0x16 8, leField 0x17 8]

/-- The stream bit of a PWM mode field in the control byte `a` (R192, R195): bits 1-0, or 2-1 with PWM_GAP_BIT = 0. -/
def pwmModeBit (p : Params) (a : Nat) : Nat :=
  match p.pwmGapBit with
  | .two => 8 * a + 6
  | .zero => 8 * a + 5

/-- One PWM group whose control byte is at `a` (R192): PRESC, EN_B, EN_A, MODE, SEC, CH0, CH1. -/
def pwmFields (p : Params) (a : Nat) : List FieldEntry :=
  [bfField (8 * a) 3, bfField (8 * a + 3) 1, bfField (8 * a + 4) 1,
    FieldEntry.coded (bfField (pwmModeBit p a) 2) .pwmmode, leField (a + 1) 16, leField (a + 3) 16, leField (a + 5) 16]

/-- Ids 42-49 (R193): IN.FIRMWARE, HARDWARE, MODEL, ERRCODE, RUN, WARN.I2C, WARN.VOLT, WARN.RETAINCRC. -/
def inHeaderFields : List FieldEntry :=
  [leField 0x80 8, leField 0x81 8, leField 0x82 8, FieldEntry.coded (bfField 1048 4) .errcode, bfField 1055 1,
    bfField 1060 1, bfField 1061 1, bfField 1062 1]

/-- Ids 50-65 (R193): IN.DIN, AIN0 to AIN5, GPIO_IN, TEMP0, HUM0, TEMP1, HUM1, TEMP2, HUM2, TEMP3, HUM3. -/
def inDataFields : List FieldEntry :=
  [leField 0x89 16, leField 0x8B 16, leField 0x8D 16, leField 0x8F 16, leField 0x91 16, leField 0x93 16,
    leField 0x95 16, leField 0x97 4, leField 0x98 16, leField 0x9A 16, leField 0x9C 16, leField 0x9E 16,
    leField 0xA0 16, leField 0xA2 16, leField 0xA4 16, leField 0xA6 16]

/-- Ids 66-68 (R194): DAC.SEL, DAC.EN, DAC.VAL in the layout of this build. -/
def dacFields (p : Params) : List FieldEntry :=
  match p.dacLayout with
  | .contiguous => [bfField 1920 1, bfField 1924 1, bfField 1925 10]
  | .mcp48x2 => [bfField 1920 1, bfField 1923 1, bfField 1924 10]

/-- The schema ROM (R190), entry `id` at index `id`. -/
def schemaRom (p : Params) : List FieldEntry :=
  outHeaderFields ++ outDigitalFields ++ pwmFields p 0x18 ++ pwmFields p 0x1F ++ pwmFields p 0x26 ++ inHeaderFields ++
    inDataFields ++ dacFields p

/-- `SCHEMA[id]`, or nothing for an unassigned id (R190: 69-127). -/
def schemaEntry (p : Params) (id : BitVec 7) : Option FieldEntry := (schemaRom p)[id.toNat]?

/-- The value of an entry's field, read as its kind says (R190, R198). -/
def fieldRead (s : State) (e : FieldEntry) : BitVec e.width :=
  match e.kind with
  | .bf => bfRead s e.operand e.width
  | .le => leRead s e.operand e.width

/-- Writes an entry's field as its kind says (R190, R199). -/
def fieldWrite (e : FieldEntry) (v : BitVec e.width) (s : State) : State :=
  match e.kind with
  | .bf => bfWrite e.operand v s
  | .le => leWrite e.operand v s

end Sys2Proof.Machine
end

