-- ==== Sys2Proof/Machine/Field.lean ====
section
/-! DEFINITION. The field commands (43_field_schema.md R198, R199). -/

namespace Sys2Proof.Machine

open Config (FieldEntry)

/-- FLD.RD of the entry `e` (R198): RES gets the raw code, EERR is set if its enum table does not map it (R197). -/
def readEntry (e : FieldEntry) (s : State) : State :=
  raiseFlag .eerr (unmapped e.enum (fieldRead s e).toNat) { s with res := (fieldRead s e).setWidth 16 }

/-- FLD.WR of the entry `e` (R199): OVF if D is wider; the enum check is on the truncated value, and an unmapped code
sets EERR and is not written (R197). -/
def writeEntry (e : FieldEntry) (s : State) : State :=
  let v := writeValue e.width s
  let t := raiseFlag .ovf (overflows e.width s.d) s
  if unmapped e.enum v.toNat then setStatusBit .eerr true t else fieldWrite e v t

/-- FLD.RD (R198); an unassigned id raises BAD_FIELD. -/
def execFldRd (id : BitVec 7) (s : State) : Result :=
  match schemaEntry s.params id with
  | none => .next (raiseFault .badField (encode (.fldRd id)) s)
  | some e => .next (readEntry e s)

/-- FLD.WR (R199); an unassigned id raises BAD_FIELD. -/
def execFldWr (id : BitVec 7) (s : State) : Result :=
  match schemaEntry s.params id with
  | none => .next (raiseFault .badField (encode (.fldWr id)) s)
  | some e => .next (writeEntry e s)

end Sys2Proof.Machine
end

