-- ==== Sys2Proof/Machine/Frame.lean ====
section
/-! DEFINITION. The frame commands (44_frame.md). -/

namespace Sys2Proof.Machine

/-- FR.STAMP (R231): stores both CRCs of the frame's current segments, and `CRC <- d`. -/
def execFrStamp (f : Frame) (s : State) : Result :=
  .next { memWrite2 (dataCrcAt f) (dataCrc s f) (memWrite2 (headerCrcAt f) (headerCrc s f) s) with crc := dataCrc s f }

/-- `he` (R232): the stored header CRC differs from the computed one. -/
def headerMismatch (s : State) (f : Frame) : Bool := decide (memRead2 s (headerCrcAt f) ≠ headerCrc s f)

/-- `de` (R232): the stored data CRC differs from the computed one. -/
def dataMismatch (s : State) (f : Frame) : Bool := decide (memRead2 s (dataCrcAt f) ≠ dataCrc s f)

/-- What FR.CHECK writes (R232): the two flags, `RES <- zext_16(de ++ he)`, `CRC <- d`. -/
def reportFrame (he de : Bool) (d : Half) (s : State) : State :=
  setStatusBit .dcrcErr de (setStatusBit .hcrcErr he
    { s with res := (BitVec.ofBool de ++ BitVec.ofBool he).setWidth 16, crc := d })

/-- FR.CHECK (R232): both segments are always checked. -/
def execFrCheck (f : Frame) (s : State) : Result :=
  .next (reportFrame (headerMismatch s f) (dataMismatch s f) (dataCrc s f) s)

end Sys2Proof.Machine
end

