-- ==== Sys2Proof/Machine/System.lean ====
section
/-! DEFINITION. System and data-register commands (41_system_data.md), and CRC.INIT (40_crc.md R112). -/

namespace Sys2Proof.Machine

/-- NOP (R140): do nothing. -/
def execNop (s : State) : Result := .next s

/-- CRC.INIT (R112): `CRC <- 0xFFFF`. -/
def execCrcInit (s : State) : Result := .next { s with crc := Config.crcInit }

/-- SCLR (R141): `STATUS.EERR <- 0; STATUS.OVF <- 0`. -/
def execSclr (s : State) : Result := .next (setStatusBit .ovf false (setStatusBit .eerr false s))

/-- MOVRD (R142): `D <- RES`. -/
def execMovrd (s : State) : Result := .next { s with d := s.res }

/-- MOVCR (R143): `RES <- CRC`. -/
def execMovcr (s : State) : Result := .next { s with res := s.crc }

/-- LDI (R145): `D <- imm16`. -/
def execLdi (imm16 : BitVec 16) (s : State) : Result := .next { s with d := imm16 }

end Sys2Proof.Machine
end

