-- ==== Sys2Proof/Machine/Dispatch.lean ====
section
/-! DEFINITION. One arm per command of the opcode table, each one call of the command's meaning. -/

namespace Sys2Proof.Machine

def exec (i : Instr) (s : State) : Host.Outcome State Fault Refusal :=
  match i with
  | .nop => Sys2Proof.Machine.execNop s
  | .crcInit => Sys2Proof.Machine.execCrcInit s
  | .sclr => Sys2Proof.Machine.execSclr s
  | .movrd => Sys2Proof.Machine.execMovrd s
  | .movcr => Sys2Proof.Machine.execMovcr s
  | .crcByte imm8 => Sys2Proof.Machine.execCrcByte imm8 s
  | .crcMem a => Sys2Proof.Machine.execCrcMem a s
  | .crcBlk a len => Sys2Proof.Machine.execCrcBlk a len s
  | .crcSeg a len => Sys2Proof.Machine.execCrcSeg a len s
  | .crcStore a => Sys2Proof.Machine.execCrcStore a s
  | .crcCheck a => Sys2Proof.Machine.execCrcCheck a s
  | .ldi imm16 => Sys2Proof.Machine.execLdi imm16 s
  | .bfRd bit width => Sys2Proof.Machine.execBfRd bit width s
  | .bfWr bit width => Sys2Proof.Machine.execBfWr bit width s
  | .leRd a width => Sys2Proof.Machine.execLeRd a width s
  | .leWr a width => Sys2Proof.Machine.execLeWr a width s
  | .fldRd id => Sys2Proof.Machine.execFldRd id s
  | .fldWr id => Sys2Proof.Machine.execFldWr id s
  | .frStamp f => Sys2Proof.Machine.execFrStamp f s
  | .frCheck f => Sys2Proof.Machine.execFrCheck f s

end Sys2Proof.Machine
end

