-- ==== Sys2Proof/Machine/Bus.lean ====
section
/-! DEFINITION. The host interface (10_state.md R26-R31, 20_memory.md R56, R62): the register map, the FB window, the
command port, the bus error response and the reset input. -/

namespace Sys2Proof.Machine

/-- The registers of the map (R26). -/
inductive HostReg where
  | cmd
  | d
  | res
  | crc
  | status
  | cause
  | id
  | fcmd
  deriving DecidableEq, Repr

/-- What an accepted access reaches (R56). -/
inductive BusTarget where
  /-- A register, by a 32-bit access. -/
  | reg (r : HostReg)
  /-- One byte of FB, by an 8-bit access. -/
  | fb (a : Nat)
  deriving DecidableEq, Repr

/-- The register at an offset that is a multiple of 4 in 0x000-0x01F (R26). -/
def regAt (offset : Nat) : Option HostReg :=
  match offset with
  | 0x000 => some .cmd
  | 0x004 => some .d
  | 0x008 => some .res
  | 0x00C => some .crc
  | 0x010 => some .status
  | 0x014 => some .cause
  | 0x018 => some .id
  | 0x01C => some .fcmd
  | _ => none

/-- The FB byte at an offset in 0x100-0x1FF (R26, R56). -/
def fbAt (offset : Nat) : Option Nat :=
  if 0x100 ≤ offset ∧ offset < 0x200 then some (offset - 0x100) else none

/-- What an access of `bits` bits at `offset` reaches; nothing where R56 says SLVERR. -/
def busTarget (bits offset : Nat) : Option BusTarget :=
  if bits = 32 then (regAt offset).map .reg
  else if bits = 8 then (fbAt offset).map .fb
  else none

/-- The word a read of a register returns (R21-R23, R26-R31). -/
def regRead (r : HostReg) (s : State) : Word :=
  match r with
  | .cmd => 0x00000000#32
  | .d => s.d.setWidth 32
  | .res => s.res.setWidth 32
  | .crc => s.crc.setWidth 32
  | .status => s.status
  | .cause => s.cause
  | .id => Config.idValue
  | .fcmd => s.fcmd

/-- The answer to a read; no read has a side effect (R62). -/
def busRead (bits offset : Nat) (s : State) : Response :=
  match busTarget bits offset with
  | none => .slverr
  | some (.reg r) => .word (regRead r s)
  | some (.fb a) => .byte (readByte s a)

/-- A word written to CMD (R31, R86): ignored while halted (R254), ILLEGAL if the decoder rejects it, else executed. -/
def commandPort (w : Word) (s : State) : Result :=
  if halted s then .next s
  else
    match decode w with
    | .error _ => .next (raiseFault .illegal w s)
    | .ok i => exec i s

/-- A word written to a register (R21-R23, R26-R31). -/
def regWrite (r : HostReg) (data : Word) (s : State) : Result :=
  match r with
  | .cmd => commandPort data s
  | .d => .next { s with d := data.setWidth 16 }
  | .res => .next s
  | .crc => .next { s with crc := data.setWidth 16 }
  | .status => .next (clearStatusW1c data s)
  | .cause => .next s
  | .id => .next s
  | .fcmd => .next s

/-- A write of `data` (R26, R56); the bus answers without error where the access is accepted. -/
def busWrite (bits offset : Nat) (data : Word) (s : State) : Result :=
  match busTarget bits offset with
  | none => .next { s with response := .slverr }
  | some (.reg r) => regWrite r data { s with response := .okay }
  | some (.fb a) => .next (writeByte a (data.setWidth 8) { s with response := .okay })

/-- One operation of the host. -/
def hostOp (op : HostOp) (s : State) : Result :=
  match op with
  | .read bits offset => .next { s with response := busRead bits offset s }
  | .write bits offset data => busWrite bits offset data s
  | .reset => .next (takeReset s)

/-- The next thing the host does, in the order it issues them (R25, R65); with nothing issued the block waits (log 5). -/
def takeNext (s : State) : Result :=
  match s.pending with
  | [] => .next s
  | op :: rest => hostOp op { s with pending := rest }

/-- The host writes the 32-bit word `w` to CMD before anything else it has pending. -/
def issueCommand (w : Word) (s : State) : State := { s with pending := .write 32 0x000 w :: s.pending }

end Sys2Proof.Machine
end

