-- ==== Sys2Proof/Machine/Step.lean ====
section
/-! DEFINITION. One step: one operation of the host, wholly done (R31, R61, R65). -/

namespace Sys2Proof.Machine

/-- One step of the block. -/
def step (s : State) : Host.Outcome State Fault Refusal := takeNext s

/-- `s` with the command word of an opcode-table row as the host's next operation: the block fetches nothing, and its
next command is the next word written to CMD (R25; log 4). -/
def State.withFetchWord (s : State) (nbits w : Nat) : State :=
  issueCommand (BitVec.ofNat 32 (w % 2 ^ nbits)) s

end Sys2Proof.Machine
end

