-- ==== Sys2Proof/Machine/Assembler.lean ====
section
/-! DEFINITION. The assembler lines of 30_encoding.md R88 with their operands as numbers, the pseudo-instructions of R89,
and the schema's field names. The spelling of a line as text is notation only (D35). -/

namespace Sys2Proof.Machine

/-- One line of R88's table, its operands the numbers that were written. -/
inductive AsmLine where
  | nop
  | crcInit
  | sclr
  | movrd
  | movcr
  | crcByte (imm8 : Nat)
  | crcMem (a : Nat)
  | crcBlk (a len : Nat)
  | crcSeg (a len : Nat)
  | crcStore (a : Nat)
  | crcCheck (a : Nat)
  | ldi (imm16 : Nat)
  | bfRd (bit width : Nat)
  | bfWr (bit width : Nat)
  | leRd (a width : Nat)
  | leWr (a width : Nat)
  | fldRd (id : Nat)
  | fldWr (id : Nat)
  | frStamp (f : Frame)
  | frCheck (f : Frame)
  deriving DecidableEq, Repr

/-- An operand that fits its field of `w` bits; the assembler refuses any other (R88). -/
def fits (w n : Nat) : Option (BitVec w) := if n < 2 ^ w then some (BitVec.ofNat w n) else none

/-- A width in 1-16; the assembler refuses any other (R88). -/
def widthFits (width : Nat) : Option Nat := if widthOk width then some width else none

/-- The command of a line, or nothing where an operand does not fit (R88). -/
def asmInstr (line : AsmLine) : Option Instr :=
  match line with
  | .nop => some .nop
  | .crcInit => some .crcInit
  | .sclr => some .sclr
  | .movrd => some .movrd
  | .movcr => some .movcr
  | .crcByte imm8 => (fits 8 imm8).map .crcByte
  | .crcMem a => (fits 8 a).map .crcMem
  | .crcBlk a len => (fits 8 a).bind fun x => (fits 9 len).map (.crcBlk x)
  | .crcSeg a len => (fits 8 a).bind fun x => (fits 9 len).map (.crcSeg x)
  | .crcStore a => (fits 8 a).map .crcStore
  | .crcCheck a => (fits 8 a).map .crcCheck
  | .ldi imm16 => (fits 16 imm16).map .ldi
  | .bfRd bit width => (fits 11 bit).bind fun x => (widthFits width).map (.bfRd x)
  | .bfWr bit width => (fits 11 bit).bind fun x => (widthFits width).map (.bfWr x)
  | .leRd a width => (fits 8 a).bind fun x => (widthFits width).map (.leRd x)
  | .leWr a width => (fits 8 a).bind fun x => (widthFits width).map (.leWr x)
  | .fldRd id => (fits 7 id).map .fldRd
  | .fldWr id => (fits 7 id).map .fldWr
  | .frStamp f => some (.frStamp f)
  | .frCheck f => some (.frCheck f)

/-- The word a line encodes (R88). -/
def assemble (line : AsmLine) : Option Word := (asmInstr line).map encode

/-- The pseudo-instructions (R89). -/
inductive PseudoLine where
  | crc16 (a len : Nat)
  | crcRd
  | u8Rd (a : Nat)
  | u8Wr (a : Nat)
  | u16Rd (a : Nat)
  | u16Wr (a : Nat)
  | bfSet (bit width imm16 : Nat)
  | leSet (a width imm16 : Nat)
  | fldSet (id imm16 : Nat)
  | fldCopy (id1 id2 : Nat)
  | stamp
  | check
  deriving DecidableEq, Repr

/-- The expansion of a pseudo-instruction (R89). -/
def expandPseudo (line : PseudoLine) : List AsmLine :=
  match line with
  | .crc16 a len => [.crcSeg a len]
  | .crcRd => [.movcr]
  | .u8Rd a => [.leRd a 8]
  | .u8Wr a => [.leWr a 8]
  | .u16Rd a => [.leRd a 16]
  | .u16Wr a => [.leWr a 16]
  | .bfSet bit width imm16 => [.ldi imm16, .bfWr bit width]
  | .leSet a width imm16 => [.ldi imm16, .leWr a width]
  | .fldSet id imm16 => [.ldi imm16, .fldWr id]
  | .fldCopy id1 id2 => [.fldRd id1, .movrd, .fldWr id2]
  | .stamp => [.frStamp .out]
  | .check => [.frCheck .inp]

/-- The names of ids 0-20 (R192). -/
def outFieldNames : List String :=
  ["OUT.MAGIC", "OUT.WATCHDOG", "OUT.SYS.PULLUP_EN", "OUT.SYS.LED_DIS", "OUT.SYS.RETAIN_EN", "OUT.SYS.RETAIN_COPY",
    "OUT.SYS.SAFE", "OUT.DDEB0", "OUT.DDEB1", "OUT.DDEB2", "OUT.DDEB3", "OUT.DDEB4", "OUT.DDEB5", "OUT.DDEB6",
    "OUT.DDEB7", "OUT.DOUT", "OUT.RELAY", "OUT.GPIO_CTRL", "OUT.GPIO_OUT", "OUT.GDEB0", "OUT.GDEB1"]

/-- The names of one PWM group's seven fields (R192). -/
def pwmFieldNames (group : String) : List String :=
  ["PRESC", "EN_B", "EN_A", "MODE", "SEC", "CH0", "CH1"].map fun field => "OUT." ++ group ++ "." ++ field

/-- The names of ids 42-65 (R193). -/
def inFieldNames : List String :=
  ["IN.FIRMWARE", "IN.HARDWARE", "IN.MODEL", "IN.ERRCODE", "IN.RUN", "IN.WARN.I2C", "IN.WARN.VOLT",
    "IN.WARN.RETAINCRC", "IN.DIN", "IN.AIN0", "IN.AIN1", "IN.AIN2", "IN.AIN3", "IN.AIN4", "IN.AIN5", "IN.GPIO_IN",
    "IN.TEMP0", "IN.HUM0", "IN.TEMP1", "IN.HUM1", "IN.TEMP2", "IN.HUM2", "IN.TEMP3", "IN.HUM3"]

/-- The schema names, that of `id` at index `id`: an operand of fld.rd and fld.wr may be written by name (R88). -/
def fieldNames : List String :=
  outFieldNames ++ pwmFieldNames "PWM0" ++ pwmFieldNames "PWM1" ++ pwmFieldNames "PWM2" ++ inFieldNames ++
    ["DAC.SEL", "DAC.EN", "DAC.VAL"]

/-- The id that a schema name stands for (R88). -/
def fieldIdNamed (name : String) : Option Nat := fieldNames.findIdx? (· == name)

end Sys2Proof.Machine
end

