-- ==== Sys2Proof/Safety.lean ====
section
/-! DEFINITION. The terms the statements use: what holds of the block at every moment (the invariant), and the spec's
own descriptions of a word, a segment and a fault, written apart from the definitions the machine runs. -/

namespace Sys2Proof.Machine

/-! ### The invariant -/

/-- STATUS bits 31..6 read 0 (R27). -/
def statusReservedZero (s : State) : Bool := decide (s.status.extractLsb' 6 26 = 0)

/-- CAUSE holds code 1, 2 or 3 exactly when STATUS.FAULT is set, else 0; FCMD is 0 until then (R28, R30, R250, R252). -/
def faultRecordOk (s : State) : Bool :=
  if halted s then decide (s.cause = 1#32 ∨ s.cause = 2#32 ∨ s.cause = 3#32)
  else decide (s.cause = 0#32 ∧ s.fcmd = 0#32)

/-- The invariant of the block: FB in canonical form and inside its 256 bytes (R50), STATUS's reserved bits zero (R27),
and the fault record in one piece (R28, R30). -/
def State.inv (s : State) : Bool := Memory.wf s.fb && statusReservedZero s && faultRecordOk s

/-- The invariant as a proposition. -/
abbrev State.Inv (s : State) : Prop := s.inv = true

/-! ### Faults, as R250 to R253 describe them -/

/-- The state before, plus the three writes of fault entry (R252). -/
def State.afterFault (s : State) (code word : Word) : State :=
  { s with status := s.status ||| 1#32, cause := code, fcmd := word }

/-- The reserved-zero bits of each opcode's format (R81, R83). -/
def reservedMask (opcode : BitVec 4) : Word :=
  match opcode with
  | 0x0#4 => 0x0FFFFFF0#32
  | 0x3#4 => 0x0FFE0000#32
  | 0x4#4 => 0x0FFE0000#32
  | 0x7#4 => 0x0FFF0000#32
  | 0x8#4 => 0x0FFF8000#32
  | 0x9#4 => 0x0FFF8000#32
  | 0xA#4 => 0x0FFFF000#32
  | 0xB#4 => 0x0FFFF000#32
  | 0xC#4 => 0x0FFFFF80#32
  | 0xD#4 => 0x0FFFFF80#32
  | 0xE#4 => 0x0FFFFFFE#32
  | 0xF#4 => 0x0FFFFFFE#32
  | _ => 0x0FFFFF00#32

/-- R85: (a) a reserved-zero bit of the word's format is 1, or (b) it is in the SYS group with func 0x5-0xF. -/
def illegalWord (w : Word) : Bool :=
  decide (w &&& reservedMask (w.extractLsb' 28 4) ≠ 0) ||
    (decide (w.extractLsb' 28 4 = 0) && decide (5 ≤ (w.extractLsb' 0 4).toNat))

/-- "ILLEGAL if word[hi:lo] ≠ 0" of a command's rule: the `len` bits from `lo` up are reserved for this opcode. -/
def RejectsReservedBits (opcode : BitVec 4) (lo len : Nat) : Prop :=
  ∀ (s : State) (w : Word), halted s = false → w.extractLsb' 28 4 = opcode → w.extractLsb' lo len ≠ 0 →
    commandPort w s = .next (s.afterFault 1#32 w)

/-- The FB range check of a command fails (R250, RANGE; R60, R115-R118, R161). -/
def rangeFails (i : Instr) : Bool :=
  match i with
  | .crcBlk a len => decide (256 < a.toNat + len.toNat)
  | .crcSeg a len => decide (256 < a.toNat + len.toNat)
  | .crcStore a => decide (256 < a.toNat + 2)
  | .crcCheck a => decide (256 < a.toNat + 2)
  | .bfRd bit width => decide (2048 < bit.toNat + width)
  | .bfWr bit width => decide (2048 < bit.toNat + width)
  | .leRd a width => decide (256 < a.toNat + (if width ≤ 8 then 1 else 2))
  | .leWr a width => decide (256 < a.toNat + (if width ≤ 8 then 1 else 2))
  | .nop => false
  | .crcInit => false
  | .sclr => false
  | .movrd => false
  | .movcr => false
  | .crcByte _ => false
  | .crcMem _ => false
  | .ldi _ => false
  | .fldRd _ => false
  | .fldWr _ => false
  | .frStamp _ => false
  | .frCheck _ => false

/-- The command is a field command with an unassigned id (R250, BAD_FIELD; R190). -/
def badFieldId (i : Instr) : Bool :=
  match i with
  | .fldRd id => decide (69 ≤ id.toNat)
  | .fldWr id => decide (69 ≤ id.toNat)
  | .nop => false
  | .crcInit => false
  | .sclr => false
  | .movrd => false
  | .movcr => false
  | .crcByte _ => false
  | .crcMem _ => false
  | .crcBlk _ _ => false
  | .crcSeg _ _ => false
  | .crcStore _ => false
  | .crcCheck _ => false
  | .ldi _ => false
  | .bfRd _ _ => false
  | .bfWr _ _ => false
  | .leRd _ _ => false
  | .leWr _ _ => false
  | .frStamp _ => false
  | .frCheck _ => false

/-- The bits of STATUS that a command can write when it does not fault (R27, R118, R141, R160, R197, R232). -/
def statusWrites (i : Instr) : Word :=
  match i with
  | .sclr => 0x00000030#32
  | .crcCheck _ => 0x00000008#32
  | .bfWr _ _ => 0x00000020#32
  | .leWr _ _ => 0x00000020#32
  | .fldRd _ => 0x00000010#32
  | .fldWr _ => 0x00000030#32
  | .frCheck _ => 0x00000006#32
  | .nop => 0
  | .crcInit => 0
  | .movrd => 0
  | .movcr => 0
  | .crcByte _ => 0
  | .crcMem _ => 0
  | .crcBlk _ _ => 0
  | .crcSeg _ _ => 0
  | .crcStore _ => 0
  | .ldi _ => 0
  | .bfRd _ _ => 0
  | .leRd _ _ => 0
  | .frStamp _ => 0

/-! ### Bytes, bits and codes, as the rules index them -/

/-- FB[a], ..., FB[a+n-1]. -/
def bytesAt (s : State) (a n : Nat) : List Byte := (List.range n).map fun k => readByte s (a + k)

/-- The bit at stream bit address `i` (R8): bit 7 - (i mod 8) of byte i div 8. -/
def streamBit (s : State) (i : Nat) : Bool := (readByte s (i / 8)).getLsbD (7 - i % 8)

/-- Bit `k` of the little-endian bit vector at byte `a` (R9, LERead). -/
def vectorBit (s : State) (a k : Nat) : Bool := (readByte s (a + k / 8)).getLsbD (k % 8)

/-- Bit `k` of the value of a schema field (R190): as BF.RD or LE.RD at its operand and width would read it. -/
def fieldBit (s : State) (e : Config.FieldEntry) (k : Nat) : Bool :=
  match e.kind with
  | .bf => streamBit s (e.operand + (e.width - 1 - k))
  | .le => vectorBit s e.operand k

/-- Which bit of the BF field of width `w` at stream bit address `i` bit `k` of byte `a` is, if any (R8, BFWrite). -/
def streamIndex (i w a k : Nat) : Option Nat :=
  if i ≤ 8 * a + (7 - k) ∧ 8 * a + (7 - k) < i + w then some (i + w - 1 - (8 * a + (7 - k))) else none

/-- Which bit of the LE field of width `w` at byte `b` bit `k` of byte `a` is, if any (R9, LEWrite). -/
def vectorIndex (b w a k : Nat) : Option Nat :=
  if b ≤ a ∧ 8 * (a - b) + k < w then some (8 * (a - b) + k) else none

/-- Which bit of the schema field `e` bit `k` of byte `a` is, if any (R190). -/
def fieldIndex (e : Config.FieldEntry) (a k : Nat) : Option Nat :=
  match e.kind with
  | .bf => streamIndex e.operand e.width a k
  | .le => vectorIndex e.operand e.width a k

/-- FB after a write that stores the bits of D named by `index` and keeps every other bit of FB: what the write rules
R163, R165 and R199 say of every bit of every byte. -/
def StoresD (index : Nat → Nat → Option Nat) (s t : State) : Prop :=
  ∀ a k, k < 8 → (readByte t a).getLsbD k =
    match index a k with
    | some j => s.d.getLsbD j
    | none => (readByte s a).getLsbD k

/-- FB reads as before at every address. -/
def SameFB (s t : State) : Prop := ∀ a, readByte t a = readByte s a

/-- A code that R196's table does not map. -/
def codeUnmapped (e : Option Config.EnumTable) (v : Nat) : Bool :=
  match e with
  | none => false
  | some .errcode => decide (v = 1 ∨ 6 < v)
  | some .watchdog => decide (10 < v)
  | some .pwmmode => decide (3 < v)

/-- The value that a write of width `w` takes from D (R160). -/
def truncated (s : State) (w : Nat) : Nat := s.d.toNat % 2 ^ w

/-- D is wider than a field of width `w` (R160). -/
def tooWide (s : State) (w : Nat) : Bool := decide (w < 16) && decide (2 ^ w ≤ s.d.toNat)

/-- STATUS with the bits of `mask` set where `p` holds: the sticky flags (R27). -/
def setIf (p : Bool) (mask status : Word) : Word := if p then status ||| mask else status

/-- STATUS with the bits of `mask` set or cleared as `p` says: the flags that hold a last result (R27). -/
def putIf (p : Bool) (mask status : Word) : Word := if p then status ||| mask else status &&& ~~~ mask

/-- `base = 0x80 · f` (R230). -/
def baseOf (f : Frame) : Nat :=
  match f with
  | .out => 0x00
  | .inp => 0x80

/-- `hcalc(f)` (R230): the 7 header bytes alone, from 0xFFFF. -/
def hcalc (s : State) (f : Frame) : Half := (bytesAt s (baseOf f) 7).foldl crcStep 0xFFFF#16

/-- `dcalc(f)` (R230): the 100 data bytes alone, from 0xFFFF. -/
def dcalc (s : State) (f : Frame) : Half := (bytesAt s (baseOf f + 9) 100).foldl crcStep 0xFFFF#16

/-- The little-endian 16-bit value stored at byte `a` (R9, MemRead(a, 2)). -/
def storedHalf (s : State) (a : Nat) : Half := readByte s (a + 1) ++ readByte s a

end Sys2Proof.Machine
end

