-- ==== Sys2Proof/Certificates/Slice0/Obligations.lean ====
section
/-! DEFINITION. The statements for the provers, each from the rule of spec/ its docstring names. "log <n>" is
notes/assumptions/<n>.md. -/

open Sys2Proof Sys2Proof.Machine

/-- Decoding the word of a well-formed command gives the command back. Rests on 30_encoding.md section 1 (R81),
30_encoding.md section 2 (R82), 30_encoding.md section 3 (R83, R84). -/
def Obligations.DecodeOfEncodeIsTheInstruction : Prop :=
  ∀ i : Instr, i.WellFormed → decode (encode i) = .ok i

/-- A word the decoder accepts is the encoding of the well-formed command it decodes to. Rests on 30_encoding.md
section 3 (R85, last sentence), 30_encoding.md section 1 (R81). -/
def Obligations.EveryAcceptedWordEncodesItsCommand : Prop :=
  ∀ (w : Word) (i : Instr), decode w = .ok i → i.WellFormed ∧ encode i = w

/-- A command word raises ILLEGAL exactly when a reserved bit or SYS func is set; every other word runs as exactly one
command. Formalises R85. -/
def Obligations.EveryWordIsOneCommandOrIllegal : Prop :=
  ∀ (s : State) (w : Word), halted s = false →
    (illegalWord w = true → commandPort w s = .next (s.afterFault 1#32 w)) ∧
      (illegalWord w = false →
        ∃ i : Instr, i.WellFormed ∧ encode i = w ∧ commandPort w s = exec i s ∧
          ∀ j : Instr, j.WellFormed → encode j = w → j = i)

/-- Every line of the assembler table assembles to the table's word, and an operand that does not fit is refused.
Rests on 30_encoding.md section 4 (R88). -/
def Obligations.AssemblerTableGivesTheWords : Prop :=
  ∀ n a len imm16 bit width id : Nat,
    assemble .nop = some 0x00000000#32 ∧ assemble .crcInit = some 0x00000001#32 ∧
    assemble .sclr = some 0x00000002#32 ∧ assemble .movrd = some 0x00000003#32 ∧
    assemble .movcr = some 0x00000004#32 ∧
    assemble (.crcByte n) = (if n ≤ 255 then some (BitVec.ofNat 32 (0x10000000 + n)) else none) ∧
    assemble (.crcMem a) = (if a ≤ 255 then some (BitVec.ofNat 32 (0x20000000 + a)) else none) ∧
    assemble (.crcBlk a len) =
      (if a ≤ 255 ∧ len ≤ 511 then some (BitVec.ofNat 32 (0x30000000 + len * 2 ^ 8 + a)) else none) ∧
    assemble (.crcSeg a len) =
      (if a ≤ 255 ∧ len ≤ 511 then some (BitVec.ofNat 32 (0x40000000 + len * 2 ^ 8 + a)) else none) ∧
    assemble (.crcStore a) = (if a ≤ 255 then some (BitVec.ofNat 32 (0x50000000 + a)) else none) ∧
    assemble (.crcCheck a) = (if a ≤ 255 then some (BitVec.ofNat 32 (0x60000000 + a)) else none) ∧
    assemble (.ldi imm16) = (if imm16 ≤ 65535 then some (BitVec.ofNat 32 (0x70000000 + imm16)) else none) ∧
    assemble (.bfRd bit width) =
      (if bit ≤ 2047 ∧ 1 ≤ width ∧ width ≤ 16 then
        some (BitVec.ofNat 32 (0x80000000 + (width - 1) * 2 ^ 11 + bit)) else none) ∧
    assemble (.bfWr bit width) =
      (if bit ≤ 2047 ∧ 1 ≤ width ∧ width ≤ 16 then
        some (BitVec.ofNat 32 (0x90000000 + (width - 1) * 2 ^ 11 + bit)) else none) ∧
    assemble (.leRd a width) =
      (if a ≤ 255 ∧ 1 ≤ width ∧ width ≤ 16 then
        some (BitVec.ofNat 32 (0xA0000000 + (width - 1) * 2 ^ 8 + a)) else none) ∧
    assemble (.leWr a width) =
      (if a ≤ 255 ∧ 1 ≤ width ∧ width ≤ 16 then
        some (BitVec.ofNat 32 (0xB0000000 + (width - 1) * 2 ^ 8 + a)) else none) ∧
    assemble (.fldRd id) = (if id ≤ 127 then some (BitVec.ofNat 32 (0xC0000000 + id)) else none) ∧
    assemble (.fldWr id) = (if id ≤ 127 then some (BitVec.ofNat 32 (0xD0000000 + id)) else none) ∧
    assemble (.frStamp .out) = some 0xE0000000#32 ∧ assemble (.frStamp .inp) = some 0xE0000001#32 ∧
    assemble (.frCheck .out) = some 0xF0000000#32 ∧ assemble (.frCheck .inp) = some 0xF0000001#32

/-- The words of the rules' worked examples decode to the commands they are written for. Rests on 40_crc.md section 2
(examples), 41_system_data.md (examples), 42_bitfield.md section 2 (examples), 43_field_schema.md section 4
(examples), 44_frame.md (examples). -/
def Obligations.SpecExampleWordsDecode : Prop :=
  decode 0x00000000#32 = .ok .nop ∧ decode 0x00000001#32 = .ok .crcInit ∧ decode 0x00000002#32 = .ok .sclr ∧
    decode 0x1000004C#32 = .ok (.crcByte 0x4C#8) ∧ decode 0x30000700#32 = .ok (.crcBlk 0x00#8 7#9) ∧
    decode 0x40000980#32 = .ok (.crcSeg 0x80#8 9#9) ∧ decode 0x50000007#32 = .ok (.crcStore 0x07#8) ∧
    decode 0x60000007#32 = .ok (.crcCheck 0x07#8) ∧ decode 0x70000006#32 = .ok (.ldi 0x0006#16) ∧
    decode 0x80001C18#32 = .ok (.bfRd 1048#11 4) ∧ decode 0x90004F85#32 = .ok (.bfWr 1925#11 10) ∧
    decode 0xA0000397#32 = .ok (.leRd 0x97#8 4) ∧ decode 0xB0000313#32 = .ok (.leWr 0x13#8 4) ∧
    decode 0xC000002D#32 = .ok (.fldRd 45#7) ∧ decode 0xE0000000#32 = .ok (.frStamp .out)

/-- A step whose pending operation writes a decodable word to CMD executes that command. Rests on 10_state.md section
4 (R31), 10_state.md section 3 (R25), 30_encoding.md section 3 (R86). Where the host's next operation stands is the
model's (log 4). -/
def Obligations.StepRunsTheDecodedCommand : Prop :=
  ∀ (s : State) (w : Word) (rest : List HostOp) (i : Instr),
    s.pending = .write 32 0x000 w :: rest → halted s = false → decode w = .ok i →
      step s = exec i { s with pending := rest, response := .okay }

/-- With no host operation pending a step changes nothing (the model's choice, log 5). Rests on 10_state.md section 3
(R25). -/
def Obligations.WaitingBlockKeepsItsState : Prop :=
  ∀ s : State, s.pending = [] → step s = .next s

/-- Every step of every state has a next state: no host operation stops the machine. Rests on 60_exceptions.md section
1 (R251, R252), 20_memory.md section 3 (R56). That the model has no stop of its own is log 11; the waiting step is log
5. -/
def Obligations.EveryStepHasANextState : Prop :=
  ∀ s : State, ∃ t : State, step s = .next t

/-- NOP changes no state, and is ignored while halted. Formalises R140. -/
def Obligations.NopChangesNothing : Prop :=
  (∀ s : State, exec .nop s = .next s) ∧ (∀ s : State, commandPort 0x00000000#32 s = .next s) ∧
    RejectsReservedBits 0x0#4 4 24

/-- CRC.INIT sets CRC to 0xFFFF and changes nothing else. Formalises R112. -/
def Obligations.CrcInitSetsCrcToAllOnes : Prop :=
  (∀ s : State, exec .crcInit s = .next { s with crc := 0xFFFF#16 }) ∧ RejectsReservedBits 0x0#4 4 24

/-- SCLR clears EERR and OVF, keeps the rest of STATUS, and cannot clear FAULT. Formalises R141. -/
def Obligations.SclrClearsEerrAndOvfOnly : Prop :=
  (∀ s : State, exec .sclr s = .next { s with status := s.status &&& 0xFFFFFFCF#32 }) ∧
    ∀ s : State, halted s = true → commandPort 0x00000002#32 s = .next s

/-- MOVRD copies RES into D and MOVCR copies CRC into RES; nothing else changes. Formalises R142, R143. -/
def Obligations.MovesCopyOneRegister : Prop :=
  (∀ s : State, exec .movrd s = .next { s with d := s.res }) ∧
    ∀ s : State, exec .movcr s = .next { s with res := s.crc }

/-- LDI loads any 16-bit value into D and changes nothing else. Formalises R145. -/
def Obligations.LdiLoadsD : Prop :=
  (∀ (imm16 : BitVec 16) (s : State), exec (.ldi imm16) s = .next { s with d := imm16 }) ∧
    RejectsReservedBits 0x7#4 16 12

/-- crcStep XORs the byte into the low byte and then shifts eight times. Formalises R110. -/
def Obligations.CrcStepIsXorThenEightShifts : Prop :=
  ∀ (c : Half) (b : Byte), crcStep c b =
    (fun x : Half => if x.getLsbD 0 then (x >>> 1) ^^^ 0xA001#16 else x >>> 1)^[8] (c ^^^ b.setWidth 16)

/-- For a fixed byte crcStep is injective in the running value, and for a fixed value injective in the byte. Rests on
40_crc.md section 1 (R110). -/
def Obligations.CrcStepIsInvertible : Prop :=
  (∀ (b : Byte) (c d : Half), crcStep c b = crcStep d b → c = d) ∧
    ∀ (c : Half) (a b : Byte), crcStep c a = crcStep c b → a = b

/-- CRC.BYTE folds its immediate byte into CRC; a zero byte keeps exactly the CRC values 0 and 0xC001. Rests on
40_crc.md section 2 (R113), 40_crc.md section 1 (R110). The second clause is R110's algorithm against R113's remark
(log 17). -/
def Obligations.CrcByteFoldsTheImmediate : Prop :=
  (∀ (imm8 : BitVec 8) (s : State), exec (.crcByte imm8) s = .next { s with crc := crcStep s.crc imm8 }) ∧
    (∀ c : Half, crcStep c 0x00#8 = c ↔ c = 0x0000#16 ∨ c = 0xC001#16) ∧ crcStep 0xFFFF#16 0xFF#8 = 0x00FF#16 ∧
      RejectsReservedBits 0x1#4 8 20

/-- CRC.MEM folds one byte of FB into CRC and changes nothing else. Formalises R114. -/
def Obligations.CrcMemFoldsOneByteOfFB : Prop :=
  (∀ (a : BitVec 8) (s : State),
      exec (.crcMem a) s = .next { s with crc := crcStep s.crc (readByte s a.toNat) }) ∧ RejectsReservedBits 0x2#4 8 20

/-- CRC.BLK folds the range into CRC from its current value, or raises RANGE. Formalises R115. -/
def Obligations.CrcBlkContinuesOverTheRange : Prop :=
  (∀ (a : BitVec 8) (len : BitVec 9) (s : State),
      exec (.crcBlk a len) s =
        if 256 < a.toNat + len.toNat then .next (s.afterFault 2#32 (encode (.crcBlk a len)))
        else .next { s with crc := (bytesAt s a.toNat len.toNat).foldl crcStep s.crc }) ∧
    RejectsReservedBits 0x3#4 17 11

/-- CRC.SEG computes crc16 of the range from 0xFFFF into CRC and RES, or raises RANGE. Formalises R116. -/
def Obligations.CrcSegStartsFresh : Prop :=
  (∀ (a : BitVec 8) (len : BitVec 9) (s : State),
      exec (.crcSeg a len) s =
        if 256 < a.toNat + len.toNat then .next (s.afterFault 2#32 (encode (.crcSeg a len)))
        else .next { s with
          crc := (bytesAt s a.toNat len.toNat).foldl crcStep 0xFFFF#16
          res := (bytesAt s a.toNat len.toNat).foldl crcStep 0xFFFF#16 }) ∧
    RejectsReservedBits 0x4#4 17 11

/-- CRC.STORE writes CRC little-endian at a and a+1 and changes nothing else, or raises RANGE. Formalises R117. -/
def Obligations.CrcStoreWritesTwoBytes : Prop :=
  (∀ (a : BitVec 8) (s : State), a ≠ 0xFF#8 →
      ∃ t : State, exec (.crcStore a) s = .next t ∧ t = { s with fb := t.fb } ∧
        ∀ b : Nat, readByte t b =
          if b = a.toNat then s.crc.extractLsb' 0 8
          else if b = a.toNat + 1 then s.crc.extractLsb' 8 8 else readByte s b) ∧
    (∀ s : State, exec (.crcStore 0xFF#8) s = .next (s.afterFault 2#32 (encode (.crcStore 0xFF#8)))) ∧
      RejectsReservedBits 0x5#4 8 20

/-- CRC.CHECK puts the stored value into RES and MISMATCH says whether it differs from CRC. Formalises R118. -/
def Obligations.CrcCheckComparesTheStoredValue : Prop :=
  (∀ (a : BitVec 8) (s : State), a ≠ 0xFF#8 →
      exec (.crcCheck a) s = .next { s with
        res := storedHalf s a.toNat
        status := putIf (decide (storedHalf s a.toNat ≠ s.crc)) 0x00000008#32 s.status }) ∧
    (∀ s : State, exec (.crcCheck 0xFF#8) s = .next (s.afterFault 2#32 (encode (.crcCheck 0xFF#8)))) ∧
      RejectsReservedBits 0x6#4 8 20

/-- Two CRC.BLK commands over adjacent ranges end as one CRC.BLK over the whole range. Rests on 40_crc.md section 1
(R119 (b)), 40_crc.md section 2 (R115). -/
def Obligations.AdjacentBlocksChain : Prop :=
  ∀ (s : State) (a b : BitVec 8) (m n k : BitVec 9), b.toNat = a.toNat + m.toNat → k.toNat = m.toNat + n.toNat →
    a.toNat + k.toNat ≤ 256 →
      ∃ t : State, exec (.crcBlk a m) s = .next t ∧ exec (.crcBlk b n) t = exec (.crcBlk a k) s

/-- A segment followed by its own stored little-endian CRC has CRC 0. Rests on 40_crc.md section 1 (R110), 40_crc.md
section 2 (R116, R117), 95_test_vectors.md V18. -/
def Obligations.SegmentFollowedByItsCrcFoldsToZero : Prop :=
  ∀ (s : State) (a e : BitVec 8) (len len2 : BitVec 9), e.toNat = a.toNat + len.toNat →
    len2.toNat = len.toNat + 2 → a.toNat + len2.toNat ≤ 256 →
      ∃ t u v : State, exec (.crcSeg a len) s = .next t ∧ exec (.crcStore e) t = .next u ∧
        exec (.crcSeg a len2) u = .next v ∧ v.crc = 0x0000#16 ∧ v.res = 0x0000#16

/-- BF.RD reads the field MSB-first, zero-extended into RES, or raises RANGE. Formalises R162. -/
def Obligations.BfRdReadsTheStreamBits : Prop :=
  (∀ (bit : BitVec 11) (w : Nat) (s : State), 1 ≤ w → w ≤ 16 → bit.toNat + w ≤ 2048 →
      ∃ r : Half, exec (.bfRd bit w) s = .next { s with res := r } ∧
        ∀ k, k < 16 → r.getLsbD k = (decide (k < w) && streamBit s (bit.toNat + (w - 1 - k)))) ∧
    (∀ (bit : BitVec 11) (w : Nat) (s : State), 1 ≤ w → w ≤ 16 → 2048 < bit.toNat + w →
      exec (.bfRd bit w) s = .next (s.afterFault 2#32 (encode (.bfRd bit w)))) ∧
      RejectsReservedBits 0x8#4 15 13

/-- BF.WR writes D's low bits MSB-first into the field's stream bits and no other, or raises RANGE. Formalises R163.
-/
def Obligations.BfWrWritesTheStreamBits : Prop :=
  (∀ (bit : BitVec 11) (w : Nat) (s : State), 1 ≤ w → w ≤ 16 → bit.toNat + w ≤ 2048 →
      ∃ t : State, exec (.bfWr bit w) s = .next t ∧
        t = { s with fb := t.fb, status := setIf (tooWide s w) 0x00000020#32 s.status } ∧
        StoresD (streamIndex bit.toNat w) s t) ∧
    (∀ (bit : BitVec 11) (w : Nat) (s : State), 1 ≤ w → w ≤ 16 → 2048 < bit.toNat + w →
      exec (.bfWr bit w) s = .next (s.afterFault 2#32 (encode (.bfWr bit w)))) ∧
      RejectsReservedBits 0x9#4 15 13

/-- LE.RD reads a little-endian bit vector, zero-extended into RES, or raises RANGE. Formalises R164. -/
def Obligations.LeRdReadsTheVectorBits : Prop :=
  (∀ (a : BitVec 8) (w : Nat) (s : State), 1 ≤ w → w ≤ 16 → a.toNat + (if w ≤ 8 then 1 else 2) ≤ 256 →
      ∃ r : Half, exec (.leRd a w) s = .next { s with res := r } ∧
        ∀ k, k < 16 → r.getLsbD k = (decide (k < w) && vectorBit s a.toNat k)) ∧
    (∀ (a : BitVec 8) (w : Nat) (s : State), 1 ≤ w → w ≤ 16 → 256 < a.toNat + (if w ≤ 8 then 1 else 2) →
      exec (.leRd a w) s = .next (s.afterFault 2#32 (encode (.leRd a w)))) ∧
      RejectsReservedBits 0xA#4 12 16

/-- LE.WR writes D's low bits as a little-endian bit vector and no other bit, or raises RANGE. Formalises R165. -/
def Obligations.LeWrWritesTheVectorBits : Prop :=
  (∀ (a : BitVec 8) (w : Nat) (s : State), 1 ≤ w → w ≤ 16 → a.toNat + (if w ≤ 8 then 1 else 2) ≤ 256 →
      ∃ t : State, exec (.leWr a w) s = .next t ∧
        t = { s with fb := t.fb, status := setIf (tooWide s w) 0x00000020#32 s.status } ∧
        StoresD (vectorIndex a.toNat w) s t) ∧
    (∀ (a : BitVec 8) (w : Nat) (s : State), 1 ≤ w → w ≤ 16 → 256 < a.toNat + (if w ≤ 8 then 1 else 2) →
      exec (.leWr a w) s = .next (s.afterFault 2#32 (encode (.leWr a w)))) ∧
      RejectsReservedBits 0xB#4 12 16

/-- A 16-bit LE read is FB[a+1] ++ FB[a], a 16-bit BF read at 8a is FB[a] ++ FB[a+1]. Formalises R58. -/
def Obligations.MixedWidthViews : Prop :=
  ∀ (s : State) (a : BitVec 8) (bit : BitVec 11), a.toNat + 1 < 256 → bit.toNat = 8 * a.toNat →
    exec (.leRd a 16) s = .next { s with res := readByte s (a.toNat + 1) ++ readByte s a.toNat } ∧
      exec (.bfRd bit 16) s = .next { s with res := readByte s a.toNat ++ readByte s (a.toNat + 1) }

/-- Reading a field just written gives back D, in both byte orders. Rests on 42_bitfield.md section 3 (R166, first
sentence). -/
def Obligations.BitFieldRoundTrip : Prop :=
  (∀ (s : State) (bit : BitVec 11) (w : Nat), 1 ≤ w → w ≤ 16 → bit.toNat + w ≤ 2048 → s.d.toNat < 2 ^ w →
      ∃ t : State, exec (.bfWr bit w) s = .next t ∧ exec (.bfRd bit w) t = .next { t with res := s.d }) ∧
    ∀ (s : State) (a : BitVec 8) (w : Nat), 1 ≤ w → w ≤ 16 → a.toNat + (if w ≤ 8 then 1 else 2) ≤ 256 →
      s.d.toNat < 2 ^ w →
        ∃ t : State, exec (.leWr a w) s = .next t ∧ exec (.leRd a w) t = .next { t with res := s.d }

/-- Writing a stream field leaves every non-overlapping stream field's value as it was, and so for LE fields. Rests on
42_bitfield.md section 3 (R166, second sentence). -/
def Obligations.WritingAFieldKeepsDisjointFields : Prop :=
  (∀ (s : State) (b c : BitVec 11) (v w : Nat), 1 ≤ v → v ≤ 16 → 1 ≤ w → w ≤ 16 → b.toNat + v ≤ 2048 →
      c.toNat + w ≤ 2048 → (b.toNat + v ≤ c.toNat ∨ c.toNat + w ≤ b.toNat) →
        ∃ (t : State) (r : Half), exec (.bfWr b v) s = .next t ∧ exec (.bfRd c w) s = .next { s with res := r } ∧
          exec (.bfRd c w) t = .next { t with res := r }) ∧
    ∀ (s : State) (a b : BitVec 8) (v w : Nat), 1 ≤ v → v ≤ 16 → 1 ≤ w → w ≤ 16 →
      a.toNat + (if v ≤ 8 then 1 else 2) ≤ 256 → b.toNat + (if w ≤ 8 then 1 else 2) ≤ 256 →
      (8 * a.toNat + v ≤ 8 * b.toNat ∨ 8 * b.toNat + w ≤ 8 * a.toNat) →
        ∃ (t : State) (r : Half), exec (.leWr a v) s = .next t ∧ exec (.leRd b w) s = .next { s with res := r } ∧
          exec (.leRd b w) t = .next { t with res := r }

/-- Read, MOVRD and write back of one field leaves every byte of FB as it was. Rests on 42_bitfield.md section 3
(R166, third sentence). -/
def Obligations.WritingBackWhatWasReadKeepsFB : Prop :=
  (∀ (s : State) (bit : BitVec 11) (w : Nat), 1 ≤ w → w ≤ 16 → bit.toNat + w ≤ 2048 →
      ∃ t u v : State, exec (.bfRd bit w) s = .next t ∧ exec .movrd t = .next u ∧ exec (.bfWr bit w) u = .next v ∧
        SameFB s v ∧ v.status = s.status) ∧
    ∀ (s : State) (a : BitVec 8) (w : Nat), 1 ≤ w → w ≤ 16 → a.toNat + (if w ≤ 8 then 1 else 2) ≤ 256 →
      ∃ t u v : State, exec (.leRd a w) s = .next t ∧ exec .movrd t = .next u ∧ exec (.leWr a w) u = .next v ∧
        SameFB s v ∧ v.status = s.status

/-- For a field inside one byte that ends at bit 0 the BF and LE commands read and write the same. Rests on
42_bitfield.md section 3 (R167, first sentence). -/
def Obligations.BothOrdersAgreeInsideOneByte : Prop :=
  ∀ (s : State) (a : BitVec 8) (bit : BitVec 11) (w : Nat), 1 ≤ w → w ≤ 8 → bit.toNat + w = 8 * a.toNat + 8 →
    (∃ r : Half, exec (.bfRd bit w) s = .next { s with res := r } ∧ exec (.leRd a w) s = .next { s with res := r }) ∧
      ∃ t u : State, exec (.bfWr bit w) s = .next t ∧ exec (.leWr a w) s = .next u ∧
        u = { t with fb := u.fb } ∧ SameFB t u

/-- A write takes D[w-1:0], sets OVF exactly when D is wider, and never clears it. Formalises R160. -/
def Obligations.OverflowIsStickyAndExact : Prop :=
  (∀ (s t : State) (bit : BitVec 11) (w : Nat), 1 ≤ w → w ≤ 16 → bit.toNat + w ≤ 2048 →
      exec (.bfWr bit w) s = .next t →
        (statusBit .ovf t = (statusBit .ovf s || tooWide s w)) ∧ StoresD (streamIndex bit.toNat w) s t ∧
          ∃ u, exec (.bfWr bit w) { s with d := BitVec.ofNat 16 (truncated s w) } = .next u ∧ SameFB t u) ∧
    (∀ (s t : State) (a : BitVec 8) (w : Nat), 1 ≤ w → w ≤ 16 → a.toNat + (if w ≤ 8 then 1 else 2) ≤ 256 →
      exec (.leWr a w) s = .next t →
        (statusBit .ovf t = (statusBit .ovf s || tooWide s w)) ∧ StoresD (vectorIndex a.toNat w) s t ∧
          ∃ u, exec (.leWr a w) { s with d := BitVec.ofNat 16 (truncated s w) } = .next u ∧ SameFB t u) ∧
    ∀ (s t : State) (id : BitVec 7) (e : Config.FieldEntry), schemaEntry s.params id = some e →
      exec (.fldWr id) s = .next t →
        (statusBit .ovf t = (statusBit .ovf s || tooWide s e.width)) ∧
          (codeUnmapped e.enum (truncated s e.width) = false → StoresD (fieldIndex e) s t) ∧
          ∃ u, exec (.fldWr id) { s with d := BitVec.ofNat 16 (truncated s e.width) } = .next u ∧ SameFB t u

/-- The schema ROM has 69 entries, each of width 1-16 and inside FB, in every build. Rests on 43_field_schema.md
section 1 (R190). -/
def Obligations.SchemaEntriesLieInsideFB : Prop :=
  ∀ p : Config.Params, (schemaRom p).length = 69 ∧
    (∀ e ∈ schemaRom p, 1 ≤ e.width ∧ e.width ≤ 16 ∧
      match e.kind with
      | .bf => e.operand + e.width ≤ 2048
      | .le => e.operand + (if e.width ≤ 8 then 1 else 2) ≤ 256) ∧
    ∀ id : BitVec 7, (schemaEntry p id).isSome = decide (id.toNat < 69)

/-- PWM_GAP_BIT places the three PWM mode fields and no other entry, and its bit of a control byte is unused.
Formalises R195. -/
def Obligations.PwmGapBitMovesTheModeFieldsOnly : Prop :=
  Config.defaultParams.pwmGapBit = .two ∧
    (∀ x : Config.DacLayout,
      schemaEntry ⟨.two, x⟩ 24#7 = some ⟨.bf, 198, 2, some .pwmmode⟩ ∧
      schemaEntry ⟨.two, x⟩ 31#7 = some ⟨.bf, 254, 2, some .pwmmode⟩ ∧
      schemaEntry ⟨.two, x⟩ 38#7 = some ⟨.bf, 310, 2, some .pwmmode⟩ ∧
      schemaEntry ⟨.zero, x⟩ 24#7 = some ⟨.bf, 197, 2, some .pwmmode⟩ ∧
      schemaEntry ⟨.zero, x⟩ 31#7 = some ⟨.bf, 253, 2, some .pwmmode⟩ ∧
      schemaEntry ⟨.zero, x⟩ 38#7 = some ⟨.bf, 309, 2, some .pwmmode⟩) ∧
    (∀ (x : Config.DacLayout) (id : BitVec 7), id ≠ 24#7 → id ≠ 31#7 → id ≠ 38#7 →
      schemaEntry ⟨.two, x⟩ id = schemaEntry ⟨.zero, x⟩ id) ∧
    ∀ (x : Config.DacLayout) (a : Nat), a ∈ [0x18, 0x1F, 0x26] →
      (∀ e ∈ schemaRom ⟨.two, x⟩, fieldIndex e a 2 = none) ∧ ∀ e ∈ schemaRom ⟨.zero, x⟩, fieldIndex e a 0 = none

/-- DAC_LAYOUT places DAC.EN and DAC.VAL and no other entry. Rests on 43_field_schema.md section 2 (R194). -/
def Obligations.DacLayoutMovesTwoFieldsOnly : Prop :=
  Config.defaultParams.dacLayout = .contiguous ∧
    (∀ g : Config.PwmGapBit,
      schemaEntry ⟨g, .contiguous⟩ 66#7 = some ⟨.bf, 1920, 1, none⟩ ∧
      schemaEntry ⟨g, .contiguous⟩ 67#7 = some ⟨.bf, 1924, 1, none⟩ ∧
      schemaEntry ⟨g, .contiguous⟩ 68#7 = some ⟨.bf, 1925, 10, none⟩ ∧
      schemaEntry ⟨g, .mcp48x2⟩ 66#7 = some ⟨.bf, 1920, 1, none⟩ ∧
      schemaEntry ⟨g, .mcp48x2⟩ 67#7 = some ⟨.bf, 1923, 1, none⟩ ∧
      schemaEntry ⟨g, .mcp48x2⟩ 68#7 = some ⟨.bf, 1924, 10, none⟩) ∧
    ∀ (g : Config.PwmGapBit) (id : BitVec 7), id.toNat < 66 →
      schemaEntry ⟨g, .contiguous⟩ id = schemaEntry ⟨g, .mcp48x2⟩ id

/-- FLD.RD reads the schema field into RES and sets EERR on an unmapped code, or raises BAD_FIELD. Formalises R198. -/
def Obligations.FldRdReadsTheSchemaField : Prop :=
  (∀ (id : BitVec 7) (s : State), id.toNat < 69 →
      ∃ (e : Config.FieldEntry) (r : Half), schemaEntry s.params id = some e ∧
        exec (.fldRd id) s =
          .next { s with res := r, status := setIf (codeUnmapped e.enum r.toNat) 0x00000010#32 s.status } ∧
        ∀ k, k < 16 → r.getLsbD k = (decide (k < e.width) && fieldBit s e k)) ∧
    (∀ (id : BitVec 7) (s : State), 69 ≤ id.toNat →
      exec (.fldRd id) s = .next (s.afterFault 3#32 (encode (.fldRd id)))) ∧
      RejectsReservedBits 0xC#4 7 21

/-- FLD.WR writes the truncated value into the schema field, or sets EERR and keeps FB, or raises BAD_FIELD.
Formalises R199. -/
def Obligations.FldWrWritesTheSchemaField : Prop :=
  (∀ (id : BitVec 7) (s : State), id.toNat < 69 →
      ∃ (e : Config.FieldEntry) (t : State), schemaEntry s.params id = some e ∧ exec (.fldWr id) s = .next t ∧
        t = { s with
          fb := t.fb
          status := setIf (codeUnmapped e.enum (truncated s e.width)) 0x00000010#32
            (setIf (tooWide s e.width) 0x00000020#32 s.status) } ∧
        (codeUnmapped e.enum (truncated s e.width) = true → t.fb = s.fb) ∧
        (codeUnmapped e.enum (truncated s e.width) = false → StoresD (fieldIndex e) s t)) ∧
    (∀ (id : BitVec 7) (s : State), 69 ≤ id.toNat →
      exec (.fldWr id) s = .next (s.afterFault 3#32 (encode (.fldWr id)))) ∧
      RejectsReservedBits 0xD#4 7 21

/-- A field command that meets an unmapped code sets EERR, is no fault, and no field command clears EERR. Formalises
R197. -/
def Obligations.EnumFailureIsLoudButNoFault : Prop :=
  ∀ (s : State) (id : BitVec 7) (e : Config.FieldEntry), schemaEntry s.params id = some e →
    ∃ t u : State, exec (.fldRd id) s = .next t ∧ exec (.fldWr id) s = .next u ∧
      (codeUnmapped e.enum t.res.toNat = true → statusBit .eerr t = true) ∧
      (∀ k, k < e.width → t.res.getLsbD k = fieldBit s e k) ∧
      (codeUnmapped e.enum (truncated s e.width) = true → statusBit .eerr u = true ∧ SameFB s u) ∧
      (statusBit .eerr s = true → statusBit .eerr t = true ∧ statusBit .eerr u = true) ∧
      (statusBit .fault t = statusBit .fault s ∧ t.cause = s.cause ∧ t.fcmd = s.fcmd) ∧
      (statusBit .fault u = statusBit .fault s ∧ u.cause = s.cause ∧ u.fcmd = s.fcmd)

/-- Reading a schema field just written with a mapped value gives that value and leaves STATUS. Rests on
43_field_schema.md section 4 (R200 (a)). -/
def Obligations.FieldRoundTrip : Prop :=
  ∀ (s : State) (id : BitVec 7) (e : Config.FieldEntry), schemaEntry s.params id = some e → s.d.toNat < 2 ^ e.width →
    codeUnmapped e.enum s.d.toNat = false →
      ∃ t : State, exec (.fldWr id) s = .next t ∧ t.status = s.status ∧
        exec (.fldRd id) t = .next { t with res := s.d }

/-- FLD.WR of one id leaves every other id's value as it was, in every build. Rests on 43_field_schema.md section 4
(R200 (b)), 43_field_schema.md section 2 (R192, R193, R194). -/
def Obligations.DistinctFieldsNeverShareABit : Prop :=
  ∀ (s : State) (i j : BitVec 7), i ≠ j → i.toNat < 69 → j.toNat < 69 →
    ∃ t u v : State, exec (.fldWr i) s = .next t ∧ exec (.fldRd j) s = .next u ∧ exec (.fldRd j) t = .next v ∧
      v.res = u.res

/-- The source's bit-order vectors hold of FLD.RD 57, 45 and 46. Rests on 43_field_schema.md section 4 (R200 (c)). -/
def Obligations.BitOrderFidelity : Prop :=
  ∀ s : State,
    (readByte s 0x97 = 0b00001010#8 → exec (.fldRd 57#7) s = .next { s with res := 0b1010#16 }) ∧
    (readByte s 0x83 = 0b00000001#8 → exec (.fldRd 45#7) s = .next { s with res := 0#16 } ∧
      exec (.fldRd 46#7) s = .next { s with res := 1#16 }) ∧
    (readByte s 0x83 = 0b01100000#8 → exec (.fldRd 45#7) s = .next { s with res := 6#16 } ∧
      exec (.fldRd 46#7) s = .next { s with res := 0#16 })

/-- FR.STAMP stores both segment CRCs little-endian and leaves CRC = the data CRC. Formalises R231. -/
def Obligations.FrStampStoresBothCrcs : Prop :=
  (∀ (f : Frame) (s : State),
      ∃ t : State, exec (.frStamp f) s = .next t ∧ t = { s with fb := t.fb, crc := dcalc s f } ∧
        ∀ b : Nat, readByte t b =
          if b = baseOf f + 7 then (hcalc s f).extractLsb' 0 8
          else if b = baseOf f + 8 then (hcalc s f).extractLsb' 8 8
          else if b = baseOf f + 109 then (dcalc s f).extractLsb' 0 8
          else if b = baseOf f + 110 then (dcalc s f).extractLsb' 8 8 else readByte s b) ∧
    RejectsReservedBits 0xE#4 1 27

/-- FR.CHECK checks both segments and reports them in STATUS and RES. Formalises R232. -/
def Obligations.FrCheckReportsBothSegments : Prop :=
  (∀ (f : Frame) (s : State),
      exec (.frCheck f) s = .next { s with
        crc := dcalc s f
        status := putIf (decide (storedHalf s (baseOf f + 109) ≠ dcalc s f)) 0x00000004#32
          (putIf (decide (storedHalf s (baseOf f + 7) ≠ hcalc s f)) 0x00000002#32 s.status)
        res := (if storedHalf s (baseOf f + 7) ≠ hcalc s f then 1#16 else 0#16) |||
          (if storedHalf s (baseOf f + 109) ≠ dcalc s f then 2#16 else 0#16) }) ∧
    RejectsReservedBits 0xF#4 1 27

/-- FR.STAMP followed by FR.CHECK of the same frame reports no error, whatever FB held. Rests on 44_frame.md (R233
(a)). -/
def Obligations.StampedFrameChecksClean : Prop :=
  ∀ (s : State) (f : Frame),
    ∃ t : State, exec (.frStamp f) s = .next t ∧
      exec (.frCheck f) t = .next { t with res := 0x0000#16, status := t.status &&& 0xFFFFFFF9#32 }

/-- FR.STAMP leaves every schema field and both retain blocks as they were, and stamping twice changes nothing more.
Rests on 44_frame.md (R233 (b), (c)). -/
def Obligations.StampTouchesNoFieldAndIsIdempotent : Prop :=
  ∀ (s : State) (f : Frame),
    ∃ t : State, exec (.frStamp f) s = .next t ∧
      (∀ id : BitVec 7, id.toNat < 69 → ∃ u v : State, exec (.fldRd id) s = .next u ∧ exec (.fldRd id) t = .next v ∧
        v.res = u.res) ∧
      (∀ a : Nat, (0x2D ≤ a ∧ a ≤ 0x6C) ∨ (0xAD ≤ a ∧ a ≤ 0xEC) → readByte t a = readByte s a) ∧
      ∃ u : State, exec (.frStamp f) t = .next u ∧ u = { t with fb := u.fb } ∧ SameFB t u

/-- After FR.STAMP, flipping any one bit of a segment makes FR.CHECK report exactly that segment. Rests on 44_frame.md
(R233 (d)), 40_crc.md section 1 (R110). -/
def Obligations.CheckDetectsEverySingleBitError : Prop :=
  ∀ (s : State) (f : Frame) (a k : Nat), k < 8 →
    ∃ t v : State, exec (.frStamp f) s = .next t ∧
      exec (.frCheck f) (writeByte a (readByte t a ^^^ BitVec.twoPow 8 k) t) = .next v ∧
      ((baseOf f ≤ a ∧ a ≤ baseOf f + 6) →
        v.res = 1#16 ∧ statusBit .hcrcErr v = true ∧ statusBit .dcrcErr v = false) ∧
      ((baseOf f + 9 ≤ a ∧ a ≤ baseOf f + 108) →
        v.res = 2#16 ∧ statusBit .hcrcErr v = false ∧ statusBit .dcrcErr v = true)

/-- A command that faults leaves the state before it plus STATUS.FAULT, CAUSE and FCMD. Formalises R252. -/
def Obligations.FaultsArePrecise : Prop :=
  ∀ (s t : State) (w : Word), halted s = false → commandPort w s = .next t → halted t = true →
    ∃ c : Word, (c = 1#32 ∨ c = 2#32 ∨ c = 3#32) ∧
      t = { s with status := s.status ||| 1#32, cause := c, fcmd := w }

/-- Which words fault, and with which cause: ILLEGAL first, then BAD_FIELD, then RANGE. Rests on 60_exceptions.md
section 1 (R250, R253). -/
def Obligations.FaultCausesAndPriority : Prop :=
  ∀ (s : State) (w : Word), halted s = false →
    (illegalWord w = true → commandPort w s = .next (s.afterFault 1#32 w)) ∧
      ∀ i : Instr, i.WellFormed → encode i = w →
        (badFieldId i = true → commandPort w s = .next (s.afterFault 3#32 w) ∧ rangeFails i = false) ∧
        (rangeFails i = true → commandPort w s = .next (s.afterFault 2#32 w) ∧ badFieldId i = false) ∧
        (badFieldId i = false → rangeFails i = false →
          ∃ t : State, commandPort w s = .next t ∧ halted t = false ∧ t.cause = s.cause ∧ t.fcmd = s.fcmd)

/-- While halted every CMD write is accepted and ignored, and every other host access still works. Formalises R254.
How an access and its answer are represented is the model's (log 4, log 6). -/
def Obligations.HaltedBlockIgnoresCommands : Prop :=
  ∀ (s : State) (rest : List HostOp), halted s = true →
    (∀ w : Word, s.pending = .write 32 0x000 w :: rest → step s = .next { s with pending := rest, response := .okay }) ∧
    (∀ off : Nat, s.pending = .read 32 off :: rest →
      ∀ v : Word, (off, v) ∈ [(0x000, 0#32), (0x004, s.d.setWidth 32), (0x008, s.res.setWidth 32),
        (0x00C, s.crc.setWidth 32), (0x010, s.status), (0x014, s.cause), (0x018, 0x4C430100#32), (0x01C, s.fcmd)] →
        step s = .next { s with pending := rest, response := .word v }) ∧
    (∀ a : Nat, a < 256 → s.pending = .read 8 (0x100 + a) :: rest →
      step s = .next { s with pending := rest, response := .byte (readByte s a) }) ∧
    (∀ w : Word, s.pending = .write 32 0x004 w :: rest →
      step s = .next { s with pending := rest, response := .okay, d := w.extractLsb' 0 16 }) ∧
    (∀ w : Word, s.pending = .write 32 0x00C w :: rest →
      step s = .next { s with pending := rest, response := .okay, crc := w.extractLsb' 0 16 }) ∧
    (∀ w : Word, s.pending = .write 32 0x010 w :: rest →
      step s = .next { s with pending := rest, response := .okay, status := s.status &&& ~~~ (w &&& 0x30#32) }) ∧
    ∀ (a : Nat) (w : Word), a < 256 → s.pending = .write 8 (0x100 + a) w :: rest →
      ∃ t : State, step s = .next t ∧ t = { s with pending := rest, response := .okay, fb := t.fb } ∧
        ∀ b : Nat, readByte t b = if b = a then w.extractLsb' 0 8 else readByte s b

/-- From a halted state only reset leads out, and no second fault is recorded. Formalises R255. How an operation is
represented is the model's (log 4). -/
def Obligations.OnlyResetLeavesTheHaltedState : Prop :=
  ∀ s : State, halted s = true → ∃ t : State, step s = .next t ∧
    ((∃ rest, s.pending = .reset :: rest) → halted t = false) ∧
      ((¬ ∃ rest, s.pending = .reset :: rest) → halted t = true ∧ t.cause = s.cause ∧ t.fcmd = s.fcmd)

/-- 32-bit reads return the register's contents; writes set D and CRC and are ignored by the read-only registers.
Rests on 10_state.md section 4 (R26, R28, R29, R30, R31), 10_state.md section 2 (R21, R22, R23). How an access and its
answer are represented is the model's (log 4, log 6). -/
def Obligations.RegisterAccessesFollowTheMap : Prop :=
  ∀ (s : State) (off : Nat) (v w : Word) (rest : List HostOp),
    (s.pending = .read 32 off :: rest →
      (off, v) ∈ [(0x000, 0#32), (0x004, s.d.setWidth 32), (0x008, s.res.setWidth 32), (0x00C, s.crc.setWidth 32),
        (0x010, s.status), (0x014, s.cause), (0x018, 0x4C430100#32), (0x01C, s.fcmd)] →
        step s = .next { s with pending := rest, response := .word v }) ∧
    (s.pending = .write 32 off w :: rest →
      (off = 0x004 → step s = .next { s with pending := rest, response := .okay, d := w.extractLsb' 0 16 }) ∧
      (off = 0x00C → step s = .next { s with pending := rest, response := .okay, crc := w.extractLsb' 0 16 }) ∧
      (off = 0x008 ∨ off = 0x014 ∨ off = 0x018 ∨ off = 0x01C →
        step s = .next { s with pending := rest, response := .okay }))

/-- A host write to STATUS clears EERR and OVF where it writes 1 and changes no other bit. Rests on 10_state.md
section 4 (R27, access and the sentence after the table). How an access and its answer are represented is the model's
(log 4, log 6). -/
def Obligations.StatusWriteOneClearsEerrAndOvfOnly : Prop :=
  ∀ (s : State) (w : Word) (rest : List HostOp), s.pending = .write 32 0x010 w :: rest →
    ∃ t : State, step s = .next t ∧ t = { s with pending := rest, response := .okay, status := t.status } ∧
      ∀ k, k < 32 → t.status.getLsbD k = (s.status.getLsbD k && !(decide (k = 4 ∨ k = 5) && w.getLsbD k))

/-- Registers take aligned 32-bit accesses, the window 8-bit ones; everything else gets SLVERR and changes nothing.
Formalises R56. How an access and its answer are represented is the model's (log 4, log 6, log 10). -/
def Obligations.HostAccessRules : Prop :=
  ∀ (s : State) (bits off : Nat) (w : Word) (rest : List HostOp),
    (s.pending = .read bits off :: rest →
      (bits = 32 ∧ off < 0x20 ∧ off % 4 = 0 →
        ∃ v : Word, step s = .next { s with pending := rest, response := .word v }) ∧
      (bits = 8 ∧ 0x100 ≤ off ∧ off < 0x200 →
        step s = .next { s with pending := rest, response := .byte (readByte s (off - 0x100)) }) ∧
      (¬ (bits = 32 ∧ off < 0x20 ∧ off % 4 = 0) → ¬ (bits = 8 ∧ 0x100 ≤ off ∧ off < 0x200) →
        step s = .next { s with pending := rest, response := .slverr })) ∧
    (s.pending = .write bits off w :: rest →
      (bits = 32 ∧ off < 0x20 ∧ off % 4 = 0 →
        ∃ t : State, step s = .next t ∧ t.response = .okay ∧ t.pending = rest) ∧
      (bits = 8 ∧ 0x100 ≤ off ∧ off < 0x200 →
        ∃ t : State, step s = .next t ∧ t = { s with pending := rest, response := .okay, fb := t.fb } ∧
          ∀ b : Nat, readByte t b = if b = off - 0x100 then w.extractLsb' 0 8 else readByte s b) ∧
      (¬ (bits = 32 ∧ off < 0x20 ∧ off % 4 = 0) → ¬ (bits = 8 ∧ 0x100 ≤ off ∧ off < 0x200) →
        step s = .next { s with pending := rest, response := .slverr }))

/-- A host read of any width at any offset changes nothing and is idempotent. Rests on 20_memory.md section 4 (R62).
How an access and its answer are represented is the model's (log 4, log 6). -/
def Obligations.ReadsHaveNoSideEffect : Prop :=
  ∀ (s : State) (bits off : Nat) (rest again : List HostOp), s.pending = .read bits off :: rest →
    ∃ r : Response, step s = .next { s with pending := rest, response := r } ∧
      step { s with pending := .read bits off :: again, response := r } =
        .next { s with pending := again, response := r }

/-- Reset gives every register its reset value and leaves every FB byte a free value. Rests on 10_state.md section 8
(R35), 70_reset_and_hazards.md section 1 (R280, R281). FB's values are the free values of log 1; that params and
pending stay is log 7. -/
def Obligations.ResetPutsEveryRegisterBack : Prop :=
  (∀ (s : State) (rest : List HostOp), s.pending = .reset :: rest →
      ∃ t : State, step s = .next t ∧ t.crc = 0xFFFF#16 ∧ t.d = 0#16 ∧ t.res = 0#16 ∧ t.status = 0#32 ∧ t.cause = 0#32 ∧
        t.fcmd = 0#32 ∧ halted t = false ∧ t.params = s.params ∧ t.pending = rest ∧
        ∀ a : Nat, readByte t a = Config.fbDraw t.resets a) ∧
    (State.reset.crc = 0xFFFF#16 ∧ State.reset.d = 0#16 ∧ State.reset.res = 0#16 ∧ State.reset.status = 0#32 ∧
      State.reset.cause = 0#32 ∧ State.reset.fcmd = 0#32 ∧ halted State.reset = false)

/-- Which commands can change CRC, D, RES, FB and each bit of STATUS, and that only a fault writes CAUSE and FCMD.
Rests on 10_state.md section 2 (R21, R22, R23), 10_state.md section 4 (R27, R28, R30), 40_crc.md section 2
(R112-R118), 41_system_data.md (R140-R143, R145, R148), 42_bitfield.md section 1 (R160), 42_bitfield.md section 2
(R162-R165), 43_field_schema.md section 3 (R197), 43_field_schema.md section 4 (R198, R199), 44_frame.md (R231, R232),
60_exceptions.md section 1 (R250, R252). params, resets, pending and response are the model's own fields (log 2, log
3, log 4, log 6). -/
def Obligations.EveryCommandWritesOnlyItsRegisters : Prop :=
  ∀ (i : Instr) (s t : State), exec i s = .next t →
    ((match i with
      | .bfRd _ _ | .leRd _ _ | .fldRd _ | .crcSeg _ _ | .crcCheck _ | .frCheck _ | .movcr => True
      | _ => t.res = s.res) ∧
    (match i with
      | .ldi _ | .movrd => True
      | _ => t.d = s.d) ∧
    (match i with
      | .crcInit | .crcByte _ | .crcMem _ | .crcBlk _ _ | .crcSeg _ _ | .frStamp _ | .frCheck _ => True
      | _ => t.crc = s.crc) ∧
    (match i with
      | .crcStore _ | .bfWr _ _ | .leWr _ _ | .fldWr _ | .frStamp _ => True
      | _ => t.fb = s.fb) ∧
    (badFieldId i = false → rangeFails i = false →
      t.status &&& ~~~ statusWrites i = s.status &&& ~~~ statusWrites i ∧ t.cause = s.cause ∧ t.fcmd = s.fcmd) ∧
    (badFieldId i = true ∨ rangeFails i = true →
      t = { s with status := s.status ||| 1#32, cause := t.cause, fcmd := t.fcmd }) ∧
    t.params = s.params ∧ t.resets = s.resets ∧ t.pending = s.pending ∧ t.response = s.response)

/-- No step changes the build's parameters, so the schema ROM stays what it is. Rests on 10_state.md section 1 (R20),
10_state.md section 6 (R33). The build's parameters are carried in State (log 3). -/
def Obligations.StepNeverChangesTheBuild : Prop :=
  ∀ s t : State, step s = .next t → t.params = s.params ∧ schemaRom t.params = schemaRom s.params

/-- Every step keeps the invariant: FB canonical and inside 256 bytes, STATUS's reserved bits 0, the fault record in
one piece. Rests on 10_state.md section 4 (R27, R28, R30), 20_memory.md section 1 (R50), 60_exceptions.md section 1
(R250, R252). The form of FB and of STATUS is the model's (log 1, log 12). -/
def Obligations.StepKeepsTheInvariant : Prop :=
  ∀ s t : State, s.Inv → step s = .next t → t.Inv

/-- The state after reset meets the invariant. Rests on 10_state.md section 8 (R35). -/
def Obligations.ResetStateHasTheInvariant : Prop :=
  State.reset.Inv
end

