-- ==== Sys2Proof/Laws/State.lean ====
section
/-! SUPPORT. The small lemmas of State: one per field and shared update. A later proof cites these and does not unfold
the update. -/

namespace Sys2Proof.Machine

/-! ### STATUS updates -/

@[simp] theorem setStatusBit_crc (b : StatusBit) (v : Bool) (s : State) : (setStatusBit b v s).crc = s.crc := rfl

@[simp] theorem setStatusBit_d (b : StatusBit) (v : Bool) (s : State) : (setStatusBit b v s).d = s.d := rfl

@[simp] theorem setStatusBit_res (b : StatusBit) (v : Bool) (s : State) : (setStatusBit b v s).res = s.res := rfl

@[simp] theorem setStatusBit_cause (b : StatusBit) (v : Bool) (s : State) : (setStatusBit b v s).cause = s.cause := rfl

@[simp] theorem setStatusBit_fcmd (b : StatusBit) (v : Bool) (s : State) : (setStatusBit b v s).fcmd = s.fcmd := rfl

@[simp] theorem setStatusBit_fb (b : StatusBit) (v : Bool) (s : State) : (setStatusBit b v s).fb = s.fb := rfl

@[simp] theorem setStatusBit_params (b : StatusBit) (v : Bool) (s : State) : (setStatusBit b v s).params = s.params := rfl

@[simp] theorem setStatusBit_resets (b : StatusBit) (v : Bool) (s : State) : (setStatusBit b v s).resets = s.resets := rfl

@[simp] theorem setStatusBit_pending (b : StatusBit) (v : Bool) (s : State) : (setStatusBit b v s).pending = s.pending := rfl

@[simp] theorem setStatusBit_response (b : StatusBit) (v : Bool) (s : State) : (setStatusBit b v s).response = s.response := rfl

@[simp] theorem setStatusBit_status (b : StatusBit) (v : Bool) (s : State) :
    (setStatusBit b v s).status = writeBit s.status b.pos v := rfl

@[simp] theorem raiseFlag_crc (b : StatusBit) (v : Bool) (s : State) : (raiseFlag b v s).crc = s.crc := by cases v <;> rfl

@[simp] theorem raiseFlag_d (b : StatusBit) (v : Bool) (s : State) : (raiseFlag b v s).d = s.d := by cases v <;> rfl

@[simp] theorem raiseFlag_res (b : StatusBit) (v : Bool) (s : State) : (raiseFlag b v s).res = s.res := by cases v <;> rfl

@[simp] theorem raiseFlag_cause (b : StatusBit) (v : Bool) (s : State) : (raiseFlag b v s).cause = s.cause := by cases v <;> rfl

@[simp] theorem raiseFlag_fcmd (b : StatusBit) (v : Bool) (s : State) : (raiseFlag b v s).fcmd = s.fcmd := by cases v <;> rfl

@[simp] theorem raiseFlag_fb (b : StatusBit) (v : Bool) (s : State) : (raiseFlag b v s).fb = s.fb := by cases v <;> rfl

@[simp] theorem raiseFlag_params (b : StatusBit) (v : Bool) (s : State) : (raiseFlag b v s).params = s.params := by cases v <;> rfl

@[simp] theorem raiseFlag_resets (b : StatusBit) (v : Bool) (s : State) : (raiseFlag b v s).resets = s.resets := by cases v <;> rfl

@[simp] theorem raiseFlag_pending (b : StatusBit) (v : Bool) (s : State) : (raiseFlag b v s).pending = s.pending := by cases v <;> rfl

@[simp] theorem raiseFlag_response (b : StatusBit) (v : Bool) (s : State) : (raiseFlag b v s).response = s.response := by cases v <;> rfl

@[simp] theorem raiseFlag_false (b : StatusBit) (s : State) : raiseFlag b false s = s := rfl

@[simp] theorem raiseFlag_true (b : StatusBit) (s : State) : raiseFlag b true s = setStatusBit b true s := rfl

@[simp] theorem clearStatusW1c_crc (data : Word) (s : State) : (clearStatusW1c data s).crc = s.crc := rfl

@[simp] theorem clearStatusW1c_d (data : Word) (s : State) : (clearStatusW1c data s).d = s.d := rfl

@[simp] theorem clearStatusW1c_res (data : Word) (s : State) : (clearStatusW1c data s).res = s.res := rfl

@[simp] theorem clearStatusW1c_cause (data : Word) (s : State) : (clearStatusW1c data s).cause = s.cause := rfl

@[simp] theorem clearStatusW1c_fcmd (data : Word) (s : State) : (clearStatusW1c data s).fcmd = s.fcmd := rfl

@[simp] theorem clearStatusW1c_fb (data : Word) (s : State) : (clearStatusW1c data s).fb = s.fb := rfl

@[simp] theorem clearStatusW1c_params (data : Word) (s : State) : (clearStatusW1c data s).params = s.params := rfl

@[simp] theorem clearStatusW1c_resets (data : Word) (s : State) : (clearStatusW1c data s).resets = s.resets := rfl

@[simp] theorem clearStatusW1c_pending (data : Word) (s : State) : (clearStatusW1c data s).pending = s.pending := rfl

@[simp] theorem clearStatusW1c_response (data : Word) (s : State) : (clearStatusW1c data s).response = s.response := rfl

@[simp] theorem clearStatusW1c_status (data : Word) (s : State) :
    (clearStatusW1c data s).status = s.status &&& ~~~ (data &&& statusW1cMask) := rfl

/-! ### Fault entry, reset and the host's queue -/

@[simp] theorem raiseFault_crc (c : Cause) (w : Word) (s : State) : (raiseFault c w s).crc = s.crc := rfl

@[simp] theorem raiseFault_d (c : Cause) (w : Word) (s : State) : (raiseFault c w s).d = s.d := rfl

@[simp] theorem raiseFault_res (c : Cause) (w : Word) (s : State) : (raiseFault c w s).res = s.res := rfl

@[simp] theorem raiseFault_fb (c : Cause) (w : Word) (s : State) : (raiseFault c w s).fb = s.fb := rfl

@[simp] theorem raiseFault_params (c : Cause) (w : Word) (s : State) : (raiseFault c w s).params = s.params := rfl

@[simp] theorem raiseFault_resets (c : Cause) (w : Word) (s : State) : (raiseFault c w s).resets = s.resets := rfl

@[simp] theorem raiseFault_pending (c : Cause) (w : Word) (s : State) : (raiseFault c w s).pending = s.pending := rfl

@[simp] theorem raiseFault_response (c : Cause) (w : Word) (s : State) : (raiseFault c w s).response = s.response := rfl

@[simp] theorem raiseFault_status (c : Cause) (w : Word) (s : State) :
    (raiseFault c w s).status = writeBit s.status 0 true := rfl

@[simp] theorem raiseFault_cause (c : Cause) (w : Word) (s : State) : (raiseFault c w s).cause = c.code := rfl

@[simp] theorem raiseFault_fcmd (c : Cause) (w : Word) (s : State) : (raiseFault c w s).fcmd = w := rfl

@[simp] theorem takeReset_crc (s : State) : (takeReset s).crc = State.reset.crc := rfl

@[simp] theorem takeReset_d (s : State) : (takeReset s).d = State.reset.d := rfl

@[simp] theorem takeReset_res (s : State) : (takeReset s).res = State.reset.res := rfl

@[simp] theorem takeReset_status (s : State) : (takeReset s).status = State.reset.status := rfl

@[simp] theorem takeReset_cause (s : State) : (takeReset s).cause = State.reset.cause := rfl

@[simp] theorem takeReset_fcmd (s : State) : (takeReset s).fcmd = State.reset.fcmd := rfl

@[simp] theorem takeReset_fb (s : State) : (takeReset s).fb = State.reset.fb := rfl

@[simp] theorem takeReset_params (s : State) : (takeReset s).params = s.params := rfl

@[simp] theorem takeReset_resets (s : State) : (takeReset s).resets = s.resets + 1 := rfl

@[simp] theorem takeReset_pending (s : State) : (takeReset s).pending = s.pending := rfl

@[simp] theorem takeReset_response (s : State) : (takeReset s).response = State.reset.response := rfl

@[simp] theorem issueCommand_crc (w : Word) (s : State) : (issueCommand w s).crc = s.crc := rfl

@[simp] theorem issueCommand_d (w : Word) (s : State) : (issueCommand w s).d = s.d := rfl

@[simp] theorem issueCommand_res (w : Word) (s : State) : (issueCommand w s).res = s.res := rfl

@[simp] theorem issueCommand_status (w : Word) (s : State) : (issueCommand w s).status = s.status := rfl

@[simp] theorem issueCommand_cause (w : Word) (s : State) : (issueCommand w s).cause = s.cause := rfl

@[simp] theorem issueCommand_fcmd (w : Word) (s : State) : (issueCommand w s).fcmd = s.fcmd := rfl

@[simp] theorem issueCommand_fb (w : Word) (s : State) : (issueCommand w s).fb = s.fb := rfl

@[simp] theorem issueCommand_params (w : Word) (s : State) : (issueCommand w s).params = s.params := rfl

@[simp] theorem issueCommand_resets (w : Word) (s : State) : (issueCommand w s).resets = s.resets := rfl

@[simp] theorem issueCommand_response (w : Word) (s : State) : (issueCommand w s).response = s.response := rfl

@[simp] theorem issueCommand_pending (w : Word) (s : State) :
    (issueCommand w s).pending = .write 32 0x000 w :: s.pending := rfl

/-! ### FB updates: they touch FB and nothing else -/

@[simp] theorem writeByte_crc (a : Nat) (v : Byte) (s : State) : (writeByte a v s).crc = s.crc := rfl

@[simp] theorem writeByte_d (a : Nat) (v : Byte) (s : State) : (writeByte a v s).d = s.d := rfl

@[simp] theorem writeByte_res (a : Nat) (v : Byte) (s : State) : (writeByte a v s).res = s.res := rfl

@[simp] theorem writeByte_status (a : Nat) (v : Byte) (s : State) : (writeByte a v s).status = s.status := rfl

@[simp] theorem writeByte_cause (a : Nat) (v : Byte) (s : State) : (writeByte a v s).cause = s.cause := rfl

@[simp] theorem writeByte_fcmd (a : Nat) (v : Byte) (s : State) : (writeByte a v s).fcmd = s.fcmd := rfl

@[simp] theorem writeByte_params (a : Nat) (v : Byte) (s : State) : (writeByte a v s).params = s.params := rfl

@[simp] theorem writeByte_resets (a : Nat) (v : Byte) (s : State) : (writeByte a v s).resets = s.resets := rfl

@[simp] theorem writeByte_pending (a : Nat) (v : Byte) (s : State) : (writeByte a v s).pending = s.pending := rfl

@[simp] theorem writeByte_response (a : Nat) (v : Byte) (s : State) : (writeByte a v s).response = s.response := rfl

@[simp] theorem writeByte_fb (a : Nat) (v : Byte) (s : State) :
    (writeByte a v s).fb = Memory.write s.fb a v := rfl

@[simp] theorem memWrite2_crc (a : Nat) (v : Half) (s : State) : (memWrite2 a v s).crc = s.crc := rfl

@[simp] theorem memWrite2_d (a : Nat) (v : Half) (s : State) : (memWrite2 a v s).d = s.d := rfl

@[simp] theorem memWrite2_res (a : Nat) (v : Half) (s : State) : (memWrite2 a v s).res = s.res := rfl

@[simp] theorem memWrite2_status (a : Nat) (v : Half) (s : State) : (memWrite2 a v s).status = s.status := rfl

@[simp] theorem memWrite2_cause (a : Nat) (v : Half) (s : State) : (memWrite2 a v s).cause = s.cause := rfl

@[simp] theorem memWrite2_fcmd (a : Nat) (v : Half) (s : State) : (memWrite2 a v s).fcmd = s.fcmd := rfl

@[simp] theorem memWrite2_params (a : Nat) (v : Half) (s : State) : (memWrite2 a v s).params = s.params := rfl

@[simp] theorem memWrite2_resets (a : Nat) (v : Half) (s : State) : (memWrite2 a v s).resets = s.resets := rfl

@[simp] theorem memWrite2_pending (a : Nat) (v : Half) (s : State) : (memWrite2 a v s).pending = s.pending := rfl

@[simp] theorem memWrite2_response (a : Nat) (v : Half) (s : State) : (memWrite2 a v s).response = s.response := rfl

@[simp] theorem bitWrite_crc (i : Nat) (b : Bool) (s : State) : (bitWrite i b s).crc = s.crc := rfl

@[simp] theorem bitWrite_d (i : Nat) (b : Bool) (s : State) : (bitWrite i b s).d = s.d := rfl

@[simp] theorem bitWrite_res (i : Nat) (b : Bool) (s : State) : (bitWrite i b s).res = s.res := rfl

@[simp] theorem bitWrite_status (i : Nat) (b : Bool) (s : State) : (bitWrite i b s).status = s.status := rfl

@[simp] theorem bitWrite_cause (i : Nat) (b : Bool) (s : State) : (bitWrite i b s).cause = s.cause := rfl

@[simp] theorem bitWrite_fcmd (i : Nat) (b : Bool) (s : State) : (bitWrite i b s).fcmd = s.fcmd := rfl

@[simp] theorem bitWrite_params (i : Nat) (b : Bool) (s : State) : (bitWrite i b s).params = s.params := rfl

@[simp] theorem bitWrite_resets (i : Nat) (b : Bool) (s : State) : (bitWrite i b s).resets = s.resets := rfl

@[simp] theorem bitWrite_pending (i : Nat) (b : Bool) (s : State) : (bitWrite i b s).pending = s.pending := rfl

@[simp] theorem bitWrite_response (i : Nat) (b : Bool) (s : State) : (bitWrite i b s).response = s.response := rfl

@[simp] theorem bfWriteBits_crc (i : Nat) {w : Nat} (v : BitVec w) (n : Nat) (s : State) : (bfWriteBits i v n s).crc = s.crc := by
  induction n with
  | zero => rfl
  | succ k ih => simpa [bfWriteBits] using ih

@[simp] theorem bfWriteBits_d (i : Nat) {w : Nat} (v : BitVec w) (n : Nat) (s : State) : (bfWriteBits i v n s).d = s.d := by
  induction n with
  | zero => rfl
  | succ k ih => simpa [bfWriteBits] using ih

@[simp] theorem bfWriteBits_res (i : Nat) {w : Nat} (v : BitVec w) (n : Nat) (s : State) : (bfWriteBits i v n s).res = s.res := by
  induction n with
  | zero => rfl
  | succ k ih => simpa [bfWriteBits] using ih

@[simp] theorem bfWriteBits_status (i : Nat) {w : Nat} (v : BitVec w) (n : Nat) (s : State) : (bfWriteBits i v n s).status = s.status := by
  induction n with
  | zero => rfl
  | succ k ih => simpa [bfWriteBits] using ih

@[simp] theorem bfWriteBits_cause (i : Nat) {w : Nat} (v : BitVec w) (n : Nat) (s : State) : (bfWriteBits i v n s).cause = s.cause := by
  induction n with
  | zero => rfl
  | succ k ih => simpa [bfWriteBits] using ih

@[simp] theorem bfWriteBits_fcmd (i : Nat) {w : Nat} (v : BitVec w) (n : Nat) (s : State) : (bfWriteBits i v n s).fcmd = s.fcmd := by
  induction n with
  | zero => rfl
  | succ k ih => simpa [bfWriteBits] using ih

@[simp] theorem bfWriteBits_params (i : Nat) {w : Nat} (v : BitVec w) (n : Nat) (s : State) : (bfWriteBits i v n s).params = s.params := by
  induction n with
  | zero => rfl
  | succ k ih => simpa [bfWriteBits] using ih

@[simp] theorem bfWriteBits_resets (i : Nat) {w : Nat} (v : BitVec w) (n : Nat) (s : State) : (bfWriteBits i v n s).resets = s.resets := by
  induction n with
  | zero => rfl
  | succ k ih => simpa [bfWriteBits] using ih

@[simp] theorem bfWriteBits_pending (i : Nat) {w : Nat} (v : BitVec w) (n : Nat) (s : State) : (bfWriteBits i v n s).pending = s.pending := by
  induction n with
  | zero => rfl
  | succ k ih => simpa [bfWriteBits] using ih

@[simp] theorem bfWriteBits_response (i : Nat) {w : Nat} (v : BitVec w) (n : Nat) (s : State) : (bfWriteBits i v n s).response = s.response := by
  induction n with
  | zero => rfl
  | succ k ih => simpa [bfWriteBits] using ih

@[simp] theorem bfWrite_crc (i : Nat) {w : Nat} (v : BitVec w) (s : State) : (bfWrite i v s).crc = s.crc := by
  simp [bfWrite]

@[simp] theorem bfWrite_d (i : Nat) {w : Nat} (v : BitVec w) (s : State) : (bfWrite i v s).d = s.d := by
  simp [bfWrite]

@[simp] theorem bfWrite_res (i : Nat) {w : Nat} (v : BitVec w) (s : State) : (bfWrite i v s).res = s.res := by
  simp [bfWrite]

@[simp] theorem bfWrite_status (i : Nat) {w : Nat} (v : BitVec w) (s : State) : (bfWrite i v s).status = s.status := by
  simp [bfWrite]

@[simp] theorem bfWrite_cause (i : Nat) {w : Nat} (v : BitVec w) (s : State) : (bfWrite i v s).cause = s.cause := by
  simp [bfWrite]

@[simp] theorem bfWrite_fcmd (i : Nat) {w : Nat} (v : BitVec w) (s : State) : (bfWrite i v s).fcmd = s.fcmd := by
  simp [bfWrite]

@[simp] theorem bfWrite_params (i : Nat) {w : Nat} (v : BitVec w) (s : State) : (bfWrite i v s).params = s.params := by
  simp [bfWrite]

@[simp] theorem bfWrite_resets (i : Nat) {w : Nat} (v : BitVec w) (s : State) : (bfWrite i v s).resets = s.resets := by
  simp [bfWrite]

@[simp] theorem bfWrite_pending (i : Nat) {w : Nat} (v : BitVec w) (s : State) : (bfWrite i v s).pending = s.pending := by
  simp [bfWrite]

@[simp] theorem bfWrite_response (i : Nat) {w : Nat} (v : BitVec w) (s : State) : (bfWrite i v s).response = s.response := by
  simp [bfWrite]

@[simp] theorem leWriteBits_crc (a : Nat) {w : Nat} (v : BitVec w) (n : Nat) (s : State) : (leWriteBits a v n s).crc = s.crc := by
  induction n with
  | zero => rfl
  | succ k ih => simpa [leWriteBits] using ih

@[simp] theorem leWriteBits_d (a : Nat) {w : Nat} (v : BitVec w) (n : Nat) (s : State) : (leWriteBits a v n s).d = s.d := by
  induction n with
  | zero => rfl
  | succ k ih => simpa [leWriteBits] using ih

@[simp] theorem leWriteBits_res (a : Nat) {w : Nat} (v : BitVec w) (n : Nat) (s : State) : (leWriteBits a v n s).res = s.res := by
  induction n with
  | zero => rfl
  | succ k ih => simpa [leWriteBits] using ih

@[simp] theorem leWriteBits_status (a : Nat) {w : Nat} (v : BitVec w) (n : Nat) (s : State) : (leWriteBits a v n s).status = s.status := by
  induction n with
  | zero => rfl
  | succ k ih => simpa [leWriteBits] using ih

@[simp] theorem leWriteBits_cause (a : Nat) {w : Nat} (v : BitVec w) (n : Nat) (s : State) : (leWriteBits a v n s).cause = s.cause := by
  induction n with
  | zero => rfl
  | succ k ih => simpa [leWriteBits] using ih

@[simp] theorem leWriteBits_fcmd (a : Nat) {w : Nat} (v : BitVec w) (n : Nat) (s : State) : (leWriteBits a v n s).fcmd = s.fcmd := by
  induction n with
  | zero => rfl
  | succ k ih => simpa [leWriteBits] using ih

@[simp] theorem leWriteBits_params (a : Nat) {w : Nat} (v : BitVec w) (n : Nat) (s : State) : (leWriteBits a v n s).params = s.params := by
  induction n with
  | zero => rfl
  | succ k ih => simpa [leWriteBits] using ih

@[simp] theorem leWriteBits_resets (a : Nat) {w : Nat} (v : BitVec w) (n : Nat) (s : State) : (leWriteBits a v n s).resets = s.resets := by
  induction n with
  | zero => rfl
  | succ k ih => simpa [leWriteBits] using ih

@[simp] theorem leWriteBits_pending (a : Nat) {w : Nat} (v : BitVec w) (n : Nat) (s : State) : (leWriteBits a v n s).pending = s.pending := by
  induction n with
  | zero => rfl
  | succ k ih => simpa [leWriteBits] using ih

@[simp] theorem leWriteBits_response (a : Nat) {w : Nat} (v : BitVec w) (n : Nat) (s : State) : (leWriteBits a v n s).response = s.response := by
  induction n with
  | zero => rfl
  | succ k ih => simpa [leWriteBits] using ih

@[simp] theorem leWrite_crc (a : Nat) {w : Nat} (v : BitVec w) (s : State) : (leWrite a v s).crc = s.crc := by
  simp [leWrite]

@[simp] theorem leWrite_d (a : Nat) {w : Nat} (v : BitVec w) (s : State) : (leWrite a v s).d = s.d := by
  simp [leWrite]

@[simp] theorem leWrite_res (a : Nat) {w : Nat} (v : BitVec w) (s : State) : (leWrite a v s).res = s.res := by
  simp [leWrite]

@[simp] theorem leWrite_status (a : Nat) {w : Nat} (v : BitVec w) (s : State) : (leWrite a v s).status = s.status := by
  simp [leWrite]

@[simp] theorem leWrite_cause (a : Nat) {w : Nat} (v : BitVec w) (s : State) : (leWrite a v s).cause = s.cause := by
  simp [leWrite]

@[simp] theorem leWrite_fcmd (a : Nat) {w : Nat} (v : BitVec w) (s : State) : (leWrite a v s).fcmd = s.fcmd := by
  simp [leWrite]

@[simp] theorem leWrite_params (a : Nat) {w : Nat} (v : BitVec w) (s : State) : (leWrite a v s).params = s.params := by
  simp [leWrite]

@[simp] theorem leWrite_resets (a : Nat) {w : Nat} (v : BitVec w) (s : State) : (leWrite a v s).resets = s.resets := by
  simp [leWrite]

@[simp] theorem leWrite_pending (a : Nat) {w : Nat} (v : BitVec w) (s : State) : (leWrite a v s).pending = s.pending := by
  simp [leWrite]

@[simp] theorem leWrite_response (a : Nat) {w : Nat} (v : BitVec w) (s : State) : (leWrite a v s).response = s.response := by
  simp [leWrite]

@[simp] theorem fieldWrite_crc (e : Config.FieldEntry) (v : BitVec e.width) (s : State) : (fieldWrite e v s).crc = s.crc := by
  unfold fieldWrite; split <;> simp

@[simp] theorem fieldWrite_d (e : Config.FieldEntry) (v : BitVec e.width) (s : State) : (fieldWrite e v s).d = s.d := by
  unfold fieldWrite; split <;> simp

@[simp] theorem fieldWrite_res (e : Config.FieldEntry) (v : BitVec e.width) (s : State) : (fieldWrite e v s).res = s.res := by
  unfold fieldWrite; split <;> simp

@[simp] theorem fieldWrite_status (e : Config.FieldEntry) (v : BitVec e.width) (s : State) : (fieldWrite e v s).status = s.status := by
  unfold fieldWrite; split <;> simp

@[simp] theorem fieldWrite_cause (e : Config.FieldEntry) (v : BitVec e.width) (s : State) : (fieldWrite e v s).cause = s.cause := by
  unfold fieldWrite; split <;> simp

@[simp] theorem fieldWrite_fcmd (e : Config.FieldEntry) (v : BitVec e.width) (s : State) : (fieldWrite e v s).fcmd = s.fcmd := by
  unfold fieldWrite; split <;> simp

@[simp] theorem fieldWrite_params (e : Config.FieldEntry) (v : BitVec e.width) (s : State) : (fieldWrite e v s).params = s.params := by
  unfold fieldWrite; split <;> simp

@[simp] theorem fieldWrite_resets (e : Config.FieldEntry) (v : BitVec e.width) (s : State) : (fieldWrite e v s).resets = s.resets := by
  unfold fieldWrite; split <;> simp

@[simp] theorem fieldWrite_pending (e : Config.FieldEntry) (v : BitVec e.width) (s : State) : (fieldWrite e v s).pending = s.pending := by
  unfold fieldWrite; split <;> simp

@[simp] theorem fieldWrite_response (e : Config.FieldEntry) (v : BitVec e.width) (s : State) : (fieldWrite e v s).response = s.response := by
  unfold fieldWrite; split <;> simp

/-! ### The report of FR.CHECK -/

@[simp] theorem reportFrame_crc (he de : Bool) (c : Half) (s : State) :
    (reportFrame he de c s).crc = c := rfl

@[simp] theorem reportFrame_res (he de : Bool) (c : Half) (s : State) :
    (reportFrame he de c s).res = (BitVec.ofBool de ++ BitVec.ofBool he).setWidth 16 := rfl

@[simp] theorem reportFrame_status (he de : Bool) (c : Half) (s : State) :
    (reportFrame he de c s).status = writeBit (writeBit s.status 1 he) 2 de := rfl

@[simp] theorem reportFrame_d (he de : Bool) (c : Half) (s : State) :
    (reportFrame he de c s).d = s.d := rfl

@[simp] theorem reportFrame_cause (he de : Bool) (c : Half) (s : State) :
    (reportFrame he de c s).cause = s.cause := rfl

@[simp] theorem reportFrame_fcmd (he de : Bool) (c : Half) (s : State) :
    (reportFrame he de c s).fcmd = s.fcmd := rfl

@[simp] theorem reportFrame_fb (he de : Bool) (c : Half) (s : State) :
    (reportFrame he de c s).fb = s.fb := rfl

@[simp] theorem reportFrame_params (he de : Bool) (c : Half) (s : State) :
    (reportFrame he de c s).params = s.params := rfl

@[simp] theorem reportFrame_resets (he de : Bool) (c : Half) (s : State) :
    (reportFrame he de c s).resets = s.resets := rfl

@[simp] theorem reportFrame_pending (he de : Bool) (c : Half) (s : State) :
    (reportFrame he de c s).pending = s.pending := rfl

@[simp] theorem reportFrame_response (he de : Bool) (c : Half) (s : State) :
    (reportFrame he de c s).response = s.response := rfl

end Sys2Proof.Machine
end

