-- ==== Sys2Proof/Laws/Memory.lean ====
section
/-! SUPPORT. FB: read after write, by byte, by stream bit and by little-endian bit, and the canonical form. -/

namespace Sys2Proof.Machine

/-! ### The list of written bytes -/

/-- Everything a write to the list does, seen through a lookup. -/
theorem lookup_write (m : Memory) (a : Nat) (v : Byte) (b : Nat) :
    Memory.lookup (Memory.write m a v) b = if b = a then some v else Memory.lookup m b := by
  induction m with
  | nil => simp [Memory.write, Memory.lookup]
  | cons head rest ih =>
    obtain ⟨c, u⟩ := head
    by_cases hlt : a < c
    · simp [Memory.write, hlt, Memory.lookup]
    · by_cases heq : a = c
      · subst heq
        by_cases hb : b = a <;> simp [Memory.write, Memory.lookup, hb]
      · by_cases hb : b = c
        · subst hb
          have : ¬ b = a := fun h => heq h.symm
          simp [Memory.write, hlt, heq, Memory.lookup, this]
        · simp [Memory.write, hlt, heq, Memory.lookup, hb, ih]

theorem write_wfFrom (m : Memory) (lo a : Nat) (v : Byte) (h : Memory.wfFrom lo m = true) (hlo : lo ≤ a)
    (ha : a < Config.fbSize) : Memory.wfFrom lo (Memory.write m a v) = true := by
  induction m generalizing lo with
  | nil => simp [Memory.write, Memory.wfFrom, hlo, ha]
  | cons head rest ih =>
    obtain ⟨c, u⟩ := head
    simp only [Memory.wfFrom, Bool.and_eq_true, decide_eq_true_eq] at h
    obtain ⟨⟨hc, hcs⟩, hrest⟩ := h
    by_cases hlt : a < c
    · simp [Memory.write, hlt, Memory.wfFrom, hlo, ha, hcs, hrest, Nat.succ_le_of_lt hlt]
    · by_cases heq : a = c
      · subst heq
        simp [Memory.write, Memory.wfFrom, hlo, ha, hrest]
      · have := ih (c + 1) hrest (by omega)
        simp [Memory.write, hlt, heq, Memory.wfFrom, hc, hcs, this]

/-- A write inside FB keeps the canonical form. -/
theorem write_wf (m : Memory) (a : Nat) (v : Byte) (h : Memory.wf m = true) (ha : a < Config.fbSize) :
    Memory.wf (Memory.write m a v) = true := write_wfFrom m 0 a v h (Nat.zero_le a) ha

/-- The canonical form holds of FB right after reset. -/
theorem reset_wf : Memory.wf State.reset.fb = true := rfl

/-! ### By byte -/

/-- A read depends on FB and on the number of resets alone. -/
theorem readByte_congr {s t : State} (hfb : t.fb = s.fb) (hr : t.resets = s.resets) (a : Nat) :
    readByte t a = readByte s a := by
  simp [readByte, hfb, hr]

/-- Read after write. -/
theorem readByte_writeByte (a : Nat) (v : Byte) (s : State) (b : Nat) :
    readByte (writeByte a v s) b = if b = a then v else readByte s b := by
  by_cases h : b = a <;> simp [readByte, lookup_write, h]

/-- Everything a little-endian 2-byte write does to FB. -/
theorem readByte_memWrite2 (a : Nat) (v : Half) (s : State) (b : Nat) :
    readByte (memWrite2 a v s) b =
      if b = a then v.extractLsb' 0 8 else if b = a + 1 then v.extractLsb' 8 8 else readByte s b := by
  by_cases h : b = a
  · subst h; simp [memWrite2, readByte_writeByte]
  · simp [memWrite2, readByte_writeByte, h]

theorem memRead2_memWrite2 (a : Nat) (v : Half) (s : State) : memRead2 (memWrite2 a v s) a = v := by
  ext k hk
  simp only [memRead2, readByte_memWrite2, ← BitVec.getLsbD_eq_getElem, BitVec.getLsbD_append]
  by_cases h8 : k < 8
  · simp [h8]
  · have : k - 8 < 8 := by omega
    simp [h8, this, show 8 + (k - 8) = k by omega]

theorem fbBytes_length (s : State) (a n : Nat) : (fbBytes s a n).length = n := by
  induction n generalizing a with
  | zero => rfl
  | succ k ih => simp [fbBytes, ih]

/-- A range's bytes depend on the bytes of the range alone. -/
theorem fbBytes_congr {s t : State} {a n : Nat} (h : ∀ b, a ≤ b → b < a + n → readByte t b = readByte s b) :
    fbBytes t a n = fbBytes s a n := by
  induction n generalizing a with
  | zero => rfl
  | succ k ih =>
    simp only [fbBytes]
    rw [h a (Nat.le_refl a) (by omega), ih fun b h1 h2 => h b (by omega) (by omega)]

theorem fbBytes_add (s : State) (a m n : Nat) : fbBytes s a (m + n) = fbBytes s a m ++ fbBytes s (a + m) n := by
  induction m generalizing a with
  | zero => simp [fbBytes]
  | succ k ih =>
    rw [show k + 1 + n = (k + n) + 1 by omega]
    simp only [fbBytes, ih, List.cons_append]
    rw [show a + 1 + k = a + (k + 1) by omega]

/-! ### One bit of a word -/

theorem getLsbD_writeBit {n : Nat} (x : BitVec n) (k : Nat) (b : Bool) (j : Nat) (hj : j < n) :
    (writeBit x k b).getLsbD j = if j = k then b else x.getLsbD j := by
  by_cases h : j = k
  · subst h
    cases b <;> simp [writeBit, hj]
  · cases b <;> simp [writeBit, h, hj]

/-! ### By stream bit -/

theorem bitRead_congr {s t : State} (hfb : t.fb = s.fb) (hr : t.resets = s.resets) (i : Nat) :
    bitRead t i = bitRead s i := by
  simp [bitRead, readByte_congr hfb hr]

/-- A bit of a byte is a bit of the stream (R8). -/
theorem readByte_getLsbD (s : State) (a k : Nat) (hk : k < 8) :
    (readByte s a).getLsbD k = bitRead s (8 * a + (7 - k)) := by
  unfold bitRead
  rw [show (8 * a + (7 - k)) / 8 = a by omega, show 7 - (8 * a + (7 - k)) % 8 = k by omega]

/-- Two states with the same stream bits have the same bytes. -/
theorem readByte_eq_of_bits {s t : State} (a : Nat)
    (h : ∀ k, k < 8 → bitRead t (8 * a + (7 - k)) = bitRead s (8 * a + (7 - k))) : readByte t a = readByte s a := by
  ext k hk
  rw [← BitVec.getLsbD_eq_getElem, ← BitVec.getLsbD_eq_getElem, readByte_getLsbD _ _ _ hk, readByte_getLsbD _ _ _ hk]
  exact h k hk

/-- Everything a write of one stream bit does to FB. -/
theorem bitRead_bitWrite (i : Nat) (b : Bool) (s : State) (j : Nat) :
    bitRead (bitWrite i b s) j = if j = i then b else bitRead s j := by
  simp only [bitRead, bitWrite, readByte_writeByte]
  by_cases hbyte : j / 8 = i / 8
  · rw [if_pos hbyte, getLsbD_writeBit _ _ _ _ (by omega), hbyte]
    by_cases h : j = i
    · simp [h]
    · rw [if_neg (by omega), if_neg h]
  · rw [if_neg hbyte, if_neg (fun h => hbyte (by rw [h]))]

theorem bitRead_bfWriteBits (i : Nat) {w : Nat} (v : BitVec w) (n : Nat) (s : State) (j : Nat) :
    bitRead (bfWriteBits i v n s) j =
      if i ≤ j ∧ j < i + n then v.getLsbD (w - 1 - (j - i)) else bitRead s j := by
  induction n with
  | zero => rw [if_neg (by omega)]; rfl
  | succ k ih =>
    simp only [bfWriteBits, bitRead_bitWrite, ih]
    by_cases h : j = i + k
    · subst h
      rw [if_pos rfl, if_pos (by omega), Nat.add_sub_cancel_left]
    · rw [if_neg h]
      by_cases h2 : i ≤ j ∧ j < i + k
      · rw [if_pos h2, if_pos (by omega)]
      · rw [if_neg h2, if_neg (by omega)]

/-- Everything BFWrite does to FB (R9): the field's stream bits, and no other. -/
theorem bitRead_bfWrite (i : Nat) {w : Nat} (v : BitVec w) (s : State) (j : Nat) :
    bitRead (bfWrite i v s) j = if i ≤ j ∧ j < i + w then v.getLsbD (w - 1 - (j - i)) else bitRead s j :=
  bitRead_bfWriteBits i v w s j

/-- Every bit of BFRead (R9): bit k is the stream bit k places before the field's last. -/
theorem getLsbD_bfRead (s : State) (i w k : Nat) (hk : k < w) :
    (bfRead s i w).getLsbD k = bitRead s (i + (w - 1 - k)) := by
  induction w generalizing k with
  | zero => omega
  | succ n ih =>
    cases k with
    | zero => simp [bfRead]
    | succ m =>
      simp only [bfRead, BitVec.getLsbD_concat, Nat.add_eq_zero_iff, Nat.one_ne_zero, and_false, if_false,
        Nat.add_sub_cancel]
      rw [ih m (by omega), show n - (m + 1) = n - 1 - m by omega]

/-! ### By little-endian bit -/

/-- A bit of a little-endian vector is a bit of the stream. -/
theorem leBit_eq_bitRead (s : State) (a k : Nat) : leBit s a k = bitRead s (8 * (a + k / 8) + (7 - k % 8)) :=
  readByte_getLsbD s (a + k / 8) (k % 8) (by omega)

/-- Writing one byte's bit, seen through the little-endian bits. -/
theorem bitRead_leWriteBits (a : Nat) {w : Nat} (v : BitVec w) (n : Nat) (s : State) (j : Nat) :
    bitRead (leWriteBits a v n s) j =
      if 8 * a ≤ j ∧ 8 * (j / 8 - a) + (7 - j % 8) < n then v.getLsbD (8 * (j / 8 - a) + (7 - j % 8))
      else bitRead s j := by
  induction n with
  | zero => rw [if_neg (by omega)]; rfl
  | succ k ih =>
    have step : leWriteBits a v (k + 1) s =
        bitWrite (8 * (a + k / 8) + (7 - k % 8)) (v.getLsbD k) (leWriteBits a v k s) := by
      simp only [leWriteBits, bitWrite]
      rw [show (8 * (a + k / 8) + (7 - k % 8)) / 8 = a + k / 8 by omega,
        show 7 - (8 * (a + k / 8) + (7 - k % 8)) % 8 = k % 8 by omega]
    rw [step, bitRead_bitWrite, ih]
    by_cases h : j = 8 * (a + k / 8) + (7 - k % 8)
    · have hk : 8 * (j / 8 - a) + (7 - j % 8) = k := by omega
      rw [if_pos h, if_pos (by omega), hk]
    · rw [if_neg h]
      by_cases h2 : 8 * a ≤ j ∧ 8 * (j / 8 - a) + (7 - j % 8) < k
      · rw [if_pos h2, if_pos (by omega)]
      · rw [if_neg h2, if_neg (by omega)]

/-- Everything LEWrite does to FB (R9). -/
theorem bitRead_leWrite (a : Nat) {w : Nat} (v : BitVec w) (s : State) (j : Nat) :
    bitRead (leWrite a v s) j =
      if 8 * a ≤ j ∧ 8 * (j / 8 - a) + (7 - j % 8) < w then v.getLsbD (8 * (j / 8 - a) + (7 - j % 8))
      else bitRead s j := bitRead_leWriteBits a v w s j

/-- Every bit of LERead (R9). -/
theorem getLsbD_leRead (s : State) (a w k : Nat) (hk : k < w) : (leRead s a w).getLsbD k = leBit s a k := by
  induction w with
  | zero => omega
  | succ n ih =>
    simp only [leRead, BitVec.getLsbD_cons]
    by_cases h : k = n
    · rw [if_pos h, h]
    · rw [if_neg h, ih (by omega)]

/-! ### The canonical form is kept -/

theorem writeByte_keeps_wf (a : Nat) (v : Byte) (s : State) (h : Memory.wf s.fb = true) (ha : a < Config.fbSize) :
    Memory.wf (writeByte a v s).fb = true := write_wf s.fb a v h ha

theorem memWrite2_keeps_wf (a : Nat) (v : Half) (s : State) (h : Memory.wf s.fb = true) (ha : a + 2 ≤ Config.fbSize) :
    Memory.wf (memWrite2 a v s).fb = true :=
  writeByte_keeps_wf _ _ _ (writeByte_keeps_wf _ _ _ h (by omega)) (by omega)

theorem bitWrite_keeps_wf (i : Nat) (b : Bool) (s : State) (h : Memory.wf s.fb = true) (hi : i < Config.fbBits) :
    Memory.wf (bitWrite i b s).fb = true :=
  writeByte_keeps_wf _ _ _ h (by simp only [Config.fbBits, Config.fbSize] at *; omega)

theorem bfWriteBits_keeps_wf (i : Nat) {w : Nat} (v : BitVec w) (n : Nat) (s : State) (h : Memory.wf s.fb = true)
    (hi : i + n ≤ Config.fbBits) : Memory.wf (bfWriteBits i v n s).fb = true := by
  induction n with
  | zero => exact h
  | succ k ih => exact bitWrite_keeps_wf _ _ _ (ih (by omega)) (by omega)

theorem bfWrite_keeps_wf (i : Nat) {w : Nat} (v : BitVec w) (s : State) (h : Memory.wf s.fb = true)
    (hi : i + w ≤ Config.fbBits) : Memory.wf (bfWrite i v s).fb = true := bfWriteBits_keeps_wf i v w s h hi

theorem leWriteBits_keeps_wf (a : Nat) {w : Nat} (v : BitVec w) (n : Nat) (s : State) (h : Memory.wf s.fb = true)
    (ha : ∀ k, k < n → a + k / 8 < Config.fbSize) : Memory.wf (leWriteBits a v n s).fb = true := by
  induction n with
  | zero => exact h
  | succ k ih => exact writeByte_keeps_wf _ _ _ (ih fun j hj => ha j (by omega)) (ha k (by omega))

theorem leWrite_keeps_wf (a : Nat) {w : Nat} (v : BitVec w) (s : State) (h : Memory.wf s.fb = true) (hw : w ≤ 16)
    (ha : a + nbytes w ≤ Config.fbSize) : Memory.wf (leWrite a v s).fb = true := by
  refine leWriteBits_keeps_wf a v w s h fun k hk => ?_
  unfold nbytes at ha
  split at ha <;> omega

end Sys2Proof.Machine
end

