-- ==== Sys2Proof/Laws/Ops.lean ====
section
/-! SUPPORT. One lemma per shared operation: everything it can do. -/

namespace Sys2Proof.Machine

/-! ### The outcome of a range check, of the command port and of a step -/

theorem bytesInRange_iff (a n : Nat) : bytesInRange a n = true ↔ a + n ≤ 256 := decide_eq_true_iff

theorem bytesInRange_false_iff (a n : Nat) : bytesInRange a n = false ↔ 256 < a + n :=
  decide_eq_false_iff_not.trans Nat.not_le

theorem bitsInRange_iff (i w : Nat) : bitsInRange i w = true ↔ i + w ≤ 2048 := decide_eq_true_iff

theorem bitsInRange_false_iff (i w : Nat) : bitsInRange i w = false ↔ 2048 < i + w :=
  decide_eq_false_iff_not.trans Nat.not_le

theorem ifInRange_true (i : Instr) (s t : State) : ifInRange true i s t = .next t := rfl

theorem ifInRange_false (i : Instr) (s t : State) :
    ifInRange false i s t = .next (raiseFault .range (encode i) s) := rfl

/-- Everything a range-checked command can do. -/
theorem ifInRange_next {ok : Bool} {i : Instr} {s t s' : State} (h : ifInRange ok i s t = .next s') :
    (ok = true ∧ s' = t) ∨ (ok = false ∧ s' = raiseFault .range (encode i) s) := by
  cases ok
  · simp only [ifInRange, Bool.false_eq_true, if_false, Host.Outcome.next.injEq] at h
    exact Or.inr ⟨rfl, h.symm⟩
  · simp only [ifInRange, if_true, Host.Outcome.next.injEq] at h
    exact Or.inl ⟨rfl, h.symm⟩

theorem commandPort_halted {w : Word} {s : State} (h : halted s = true) : commandPort w s = .next s := by
  simp [commandPort, h]

theorem commandPort_illegal {w : Word} {s : State} {e : Illegal} (h : halted s = false) (hw : decode w = .error e) :
    commandPort w s = .next (raiseFault .illegal w s) := by
  simp [commandPort, h, hw]

theorem commandPort_runs {w : Word} {s : State} {i : Instr} (h : halted s = false) (hw : decode w = .ok i) :
    commandPort w s = exec i s := by
  simp [commandPort, h, hw]

/-- Everything a step can do: wait, or take the oldest pending operation. -/
theorem step_cases (s : State) :
    (s.pending = [] ∧ step s = .next s) ∨
      ∃ op rest, s.pending = op :: rest ∧ step s = hostOp op { s with pending := rest } := by
  cases h : s.pending with
  | nil => exact Or.inl ⟨rfl, by simp [step, takeNext, h]⟩
  | cons op rest => exact Or.inr ⟨op, rest, rfl, by simp [step, takeNext, h]⟩

/-- A step with an operation pending. -/
theorem step_of_pending {s : State} {op : HostOp} {rest : List HostOp} (h : s.pending = op :: rest) :
    step s = hostOp op { s with pending := rest } := by
  simp [step, takeNext, h]

/-! ### STATUS -/

/-- Everything an update of one STATUS field does. -/
theorem statusBit_setStatusBit (b c : StatusBit) (v : Bool) (s : State) :
    statusBit c (setStatusBit b v s) = if c = b then v else statusBit c s := by
  simp only [statusBit, setStatusBit_status]
  rw [getLsbD_writeBit _ _ _ _ (by cases c <;> decide)]
  cases b <;> cases c <;> simp [StatusBit.pos]

/-- The reserved bits of STATUS are kept by every update of one field. -/
theorem setStatusBit_reserved (b : StatusBit) (v : Bool) (s : State) :
    (setStatusBit b v s).status.extractLsb' 6 26 = s.status.extractLsb' 6 26 := by
  ext k hk
  simp only [← BitVec.getLsbD_eq_getElem, BitVec.getLsbD_extractLsb', setStatusBit_status]
  rw [getLsbD_writeBit _ _ _ _ (by omega), if_neg (by cases b <;> simp [StatusBit.pos] <;> omega)]

/-- Everything a host write to STATUS does (R27). -/
theorem statusBit_clearStatusW1c (data : Word) (s : State) (c : StatusBit) :
    statusBit c (clearStatusW1c data s) =
      (statusBit c s && !((c == .eerr || c == .ovf) && data.getLsbD c.pos)) := by
  cases c <;> simp [statusBit, StatusBit.pos, statusW1cMask]

theorem halted_raiseFault (c : Cause) (w : Word) (s : State) : halted (raiseFault c w s) = true := by
  have h := statusBit_setStatusBit .fault .fault true s
  rwa [if_pos rfl] at h

/-! ### The frame commands

Each lemma hands over the segments' CRCs as variables with their equations, so that a caller that needs only the shape
of the next state never unfolds a fold over a segment. -/

/-- Everything FR.STAMP can do (R231). -/
theorem execFrStamp_next {f : Frame} {s t : State} (h : exec (.frStamp f) s = .next t) :
    ∃ hc dc : Half, hc = headerCrc s f ∧ dc = dataCrc s f ∧
      t = { memWrite2 (dataCrcAt f) dc (memWrite2 (headerCrcAt f) hc s) with crc := dc } :=
  ⟨_, _, rfl, rfl, (Host.Outcome.next.inj h).symm⟩

/-- Everything FR.CHECK can do (R232). -/
theorem execFrCheck_next {f : Frame} {s t : State} (h : exec (.frCheck f) s = .next t) :
    ∃ (he de : Bool) (dc : Half), he = headerMismatch s f ∧ de = dataMismatch s f ∧ dc = dataCrc s f ∧
      t = reportFrame he de dc s :=
  ⟨_, _, _, rfl, rfl, rfl, (Host.Outcome.next.inj h).symm⟩

/-- FR.CHECK writes HCRC_ERR and DCRC_ERR of STATUS and no other bit. -/
theorem statusBit_reportFrame (b : StatusBit) (he de : Bool) (c : Half) (s : State) :
    statusBit b (reportFrame he de c s) =
      if b = .dcrcErr then de else if b = .hcrcErr then he else statusBit b s := by
  rw [reportFrame, statusBit_setStatusBit, statusBit_setStatusBit]
  rfl

/-! ### The CRC algorithm -/

/-- The running value stands first in the rule's own XOR. -/
theorem crcStep_eq (c : Half) (b : Byte) : crcStep c b = crcShifts 8 (c ^^^ b.setWidth 16) :=
  congrArg (crcShifts 8) (BitVec.xor_comm _ _)

/-- Chaining of the fold. -/
theorem crc16_concat (x y : List Byte) (c : Half) : crc16 (x ++ y) c = crc16 y (crc16 x c) := by
  induction x generalizing c with
  | nil => rfl
  | cons b rest ih => exact ih _

/-- One shift is invertible: bit 15 of the result is the bit that was shifted out. -/
theorem crcShift_injective : Function.Injective crcShift := by
  intro c d h
  have hb : ∀ x : Half, (crcShift x).getLsbD 15 = x.getLsbD 0 := by
    intro x
    unfold crcShift Config.crcPoly
    split
    · next hx => simp [hx]
    · next hx => simpa using hx
  have h0 : c.getLsbD 0 = d.getLsbD 0 := by rw [← hb c, ← hb d, h]
  have hs : c >>> 1 = d >>> 1 := by
    unfold crcShift at h
    rw [h0] at h
    split at h
    · simpa using congrArg (· ^^^ Config.crcPoly) h
    · exact h
  ext k hk
  rw [← BitVec.getLsbD_eq_getElem, ← BitVec.getLsbD_eq_getElem]
  cases k with
  | zero => exact h0
  | succ m =>
    have := congrArg (fun x : Half => x.getLsbD m) hs
    simpa [BitVec.getLsbD_ushiftRight, Nat.add_comm] using this

theorem crcShifts_injective (n : Nat) : Function.Injective (crcShifts n) := by
  induction n with
  | zero => exact fun _ _ h => h
  | succ k ih => exact fun _ _ h => crcShift_injective (ih h)

end Sys2Proof.Machine
end

