-- ==== Sys2Proof/Laws/PerInstr.lean ====
section
/-! SUPPORT. The per-instruction family OpcodeRow: the word of every command carries the fixed bits that its row of
spec/opcode_table.json gives it (its match under its mask). -/

namespace Sys2Proof.Laws

/-- The match and the mask of a command's row in spec/opcode_table.json. -/
def tableRow (i : Instr) : Word × Word :=
  match i with
  | .nop => (0x00000000#32, 0xFFFFFFFF#32)
  | .crcInit => (0x00000001#32, 0xFFFFFFFF#32)
  | .sclr => (0x00000002#32, 0xFFFFFFFF#32)
  | .movrd => (0x00000003#32, 0xFFFFFFFF#32)
  | .movcr => (0x00000004#32, 0xFFFFFFFF#32)
  | .crcByte _ => (0x10000000#32, 0xFFFFFF00#32)
  | .crcMem _ => (0x20000000#32, 0xFFFFFF00#32)
  | .crcBlk _ _ => (0x30000000#32, 0xFFFE0000#32)
  | .crcSeg _ _ => (0x40000000#32, 0xFFFE0000#32)
  | .crcStore _ => (0x50000000#32, 0xFFFFFF00#32)
  | .crcCheck _ => (0x60000000#32, 0xFFFFFF00#32)
  | .ldi _ => (0x70000000#32, 0xFFFF0000#32)
  | .bfRd _ _ => (0x80000000#32, 0xFFFF8000#32)
  | .bfWr _ _ => (0x90000000#32, 0xFFFF8000#32)
  | .leRd _ _ => (0xA0000000#32, 0xFFFFF000#32)
  | .leWr _ _ => (0xB0000000#32, 0xFFFFF000#32)
  | .fldRd _ => (0xC0000000#32, 0xFFFFFF80#32)
  | .fldWr _ => (0xD0000000#32, 0xFFFFFF80#32)
  | .frStamp _ => (0xE0000000#32, 0xFFFFFFFE#32)
  | .frCheck _ => (0xF0000000#32, 0xFFFFFFFE#32)

/-- The fixed bits of the row stand in the command's word. -/
def OpcodeRow.Statement (i : Instr) : Prop := encode i &&& (tableRow i).2 = (tableRow i).1

theorem OpcodeRow.nop : OpcodeRow.Statement .nop := by unfold Statement; decide

theorem OpcodeRow.crcInit : OpcodeRow.Statement .crcInit := by unfold Statement; decide

theorem OpcodeRow.sclr : OpcodeRow.Statement .sclr := by unfold Statement; decide

theorem OpcodeRow.movrd : OpcodeRow.Statement .movrd := by unfold Statement; decide

theorem OpcodeRow.movcr : OpcodeRow.Statement .movcr := by unfold Statement; decide

/-- An operand in the low `m` bits leaves the fixed bits above it as they are. -/
theorem fixed_bits (m : Nat) {k n : Nat} (hn : k + m = n) (top : BitVec k) (low : BitVec m) (fixed mask : BitVec n)
    (hmask : mask = (BitVec.allOnes k ++ 0#m).cast hn) (hfixed : fixed = (top ++ 0#m).cast hn) :
    (top ++ low).cast hn &&& mask = fixed := by
  subst hn hmask hfixed
  ext j hj
  simp only [BitVec.cast_eq, BitVec.getElem_and, BitVec.getElem_append]
  split <;> simp

theorem OpcodeRow.crcByte (imm8 : BitVec 8) : OpcodeRow.Statement (.crcByte imm8) :=
  fixed_bits 8 (k := 24) rfl (0x1#4 ++ 0#20) imm8 _ _ rfl rfl

theorem OpcodeRow.crcMem (a : BitVec 8) : OpcodeRow.Statement (.crcMem a) :=
  fixed_bits 8 (k := 24) rfl (0x2#4 ++ 0#20) a _ _ rfl rfl

theorem OpcodeRow.crcStore (a : BitVec 8) : OpcodeRow.Statement (.crcStore a) :=
  fixed_bits 8 (k := 24) rfl (0x5#4 ++ 0#20) a _ _ rfl rfl

theorem OpcodeRow.crcCheck (a : BitVec 8) : OpcodeRow.Statement (.crcCheck a) :=
  fixed_bits 8 (k := 24) rfl (0x6#4 ++ 0#20) a _ _ rfl rfl

theorem OpcodeRow.ldi (imm16 : BitVec 16) : OpcodeRow.Statement (.ldi imm16) :=
  fixed_bits 16 (k := 16) rfl (0x7#4 ++ 0#12) imm16 _ _ rfl rfl

theorem OpcodeRow.fldRd (id : BitVec 7) : OpcodeRow.Statement (.fldRd id) :=
  fixed_bits 7 (k := 25) rfl (0xC#4 ++ 0#21) id _ _ rfl rfl

theorem OpcodeRow.fldWr (id : BitVec 7) : OpcodeRow.Statement (.fldWr id) :=
  fixed_bits 7 (k := 25) rfl (0xD#4 ++ 0#21) id _ _ rfl rfl

theorem OpcodeRow.frStamp (f : Frame) : OpcodeRow.Statement (.frStamp f) := by cases f <;> (unfold Statement; decide)

theorem OpcodeRow.frCheck (f : Frame) : OpcodeRow.Statement (.frCheck f) := by cases f <;> (unfold Statement; decide)

/-- The same with two operands below the fixed bits. -/
theorem fixed_bits_two (l m : Nat) {k n : Nat} (hn : k + l + m = n) (top : BitVec k) (high : BitVec l) (low : BitVec m)
    (fixed mask : BitVec n) (hmask : mask = (BitVec.allOnes k ++ 0#l ++ 0#m).cast hn)
    (hfixed : fixed = (top ++ 0#l ++ 0#m).cast hn) : (top ++ high ++ low).cast hn &&& mask = fixed := by
  subst hn hmask hfixed
  ext j hj
  simp only [BitVec.cast_eq, BitVec.getElem_and, BitVec.getElem_append]
  split
  · simp
  · split <;> simp

theorem OpcodeRow.crcBlk (a : BitVec 8) (len : BitVec 9) : OpcodeRow.Statement (.crcBlk a len) :=
  fixed_bits_two 9 8 (k := 15) rfl (0x3#4 ++ 0#11) len a _ _ rfl rfl

theorem OpcodeRow.crcSeg (a : BitVec 8) (len : BitVec 9) : OpcodeRow.Statement (.crcSeg a len) :=
  fixed_bits_two 9 8 (k := 15) rfl (0x4#4 ++ 0#11) len a _ _ rfl rfl

theorem OpcodeRow.bfRd (bit : BitVec 11) (width : Nat) : OpcodeRow.Statement (.bfRd bit width) :=
  fixed_bits_two 4 11 (k := 17) rfl (0x8#4 ++ 0#13) (widthCode width) bit _ _ rfl rfl

theorem OpcodeRow.bfWr (bit : BitVec 11) (width : Nat) : OpcodeRow.Statement (.bfWr bit width) :=
  fixed_bits_two 4 11 (k := 17) rfl (0x9#4 ++ 0#13) (widthCode width) bit _ _ rfl rfl

theorem OpcodeRow.leRd (a : BitVec 8) (width : Nat) : OpcodeRow.Statement (.leRd a width) :=
  fixed_bits_two 4 8 (k := 20) rfl (0xA#4 ++ 0#16) (widthCode width) a _ _ rfl rfl

theorem OpcodeRow.leWr (a : BitVec 8) (width : Nat) : OpcodeRow.Statement (.leWr a width) :=
  fixed_bits_two 4 8 (k := 20) rfl (0xB#4 ++ 0#16) (widthCode width) a _ _ rfl rfl

end Sys2Proof.Laws
end

