-- ==== Sys2Proof/Tests/Slice0.lean ====
section
/-! SUPPORT. Tests. The expected values are the spec's: the encodings of 30_encoding.md, the tables of
43_field_schema.md and the vectors of 95_test_vectors.md (V<n>, S<n>). The `test_witness_` theorems show, for every
statement with hypotheses, concrete states and operands that meet them. -/

namespace Sys2Proof.Tests

open Sys2Proof Sys2Proof.Machine

/-! ### Helpers -/

/-- Bytes `bytes` written at `a` and up. -/
def load (a : Nat) (bytes : List Nat) (s : State) : State :=
  match bytes with
  | [] => s
  | b :: rest => load (a + 1) rest (writeByte a (BitVec.ofNat 8 b) s)

/-- What `f` sees of the next state of a result. -/
def seen {α : Type} (r : Result) (f : State → α) : Option α :=
  match r with
  | .next t => some (f t)
  | .fault _ => none
  | .refused _ => none

/-- What `f` sees after the command word `w` is written to CMD in the state `s`. -/
def after {α : Type} (w : Nat) (s : State) (f : State → α) : Option α := seen (commandPort (BitVec.ofNat 32 w) s) f

/-- What `f` sees after the host operation `op` in the state `s`. -/
def hostDid {α : Type} (op : HostOp) (s : State) (f : State → α) : Option α := seen (step { s with pending := [op] }) f

/-- STATUS, CAUSE and FCMD. -/
def record (t : State) : Word × Word × Word := (t.status, t.cause, t.fcmd)

/-- The state after reset. -/
def start : State := State.reset

/-- A block halted by the word 0x0000000F (V74). -/
def stopped : State := raiseFault .illegal 0x0000000F#32 start

/-! ### Well-formedness refuses a width that no word holds (R82) -/

theorem test_wellFormed_refuses_zero_width :
    (Instr.bfRd 0#11 0).wellFormed = false ∧ (Instr.bfWr 0#11 0).wellFormed = false ∧
      (Instr.leRd 0#8 0).wellFormed = false ∧ (Instr.leWr 0#8 0).wellFormed = false := by decide

theorem test_wellFormed_refuses_width_17 :
    (Instr.bfRd 0#11 17).wellFormed = false ∧ (Instr.bfWr 0#11 17).wellFormed = false ∧
      (Instr.leRd 0#8 17).wellFormed = false ∧ (Instr.leWr 0#8 17).wellFormed = false := by decide

/-! ### Decoding: words written out from the layouts of R81 to R84 -/

theorem test_decode_sys_words :
    decode 0b0000_000000000000000000000000_0000#32 = .ok .nop ∧
    decode 0b0000_000000000000000000000000_0001#32 = .ok .crcInit ∧
    decode 0b0000_000000000000000000000000_0010#32 = .ok .sclr ∧
    decode 0b0000_000000000000000000000000_0011#32 = .ok .movrd ∧
    decode 0b0000_000000000000000000000000_0100#32 = .ok .movcr ∧
    decode 0b0111_000000000000_1000000000000001#32 = .ok (.ldi 0x8001#16) := by decide

theorem test_encode_sys_words :
    encode .nop = 0b0000_000000000000000000000000_0000#32 ∧
    encode .crcInit = 0b0000_000000000000000000000000_0001#32 ∧
    encode .sclr = 0b0000_000000000000000000000000_0010#32 ∧
    encode .movrd = 0b0000_000000000000000000000000_0011#32 ∧
    encode .movcr = 0b0000_000000000000000000000000_0100#32 ∧
    encode (.ldi 0x8001#16) = 0b0111_000000000000_1000000000000001#32 := by decide

theorem test_decode_crc_words :
    decode 0b0001_00000000000000000000_01001100#32 = .ok (.crcByte 0x4C#8) ∧
    decode 0b0010_00000000000000000000_10000001#32 = .ok (.crcMem 0x81#8) ∧
    decode 0b0011_00000000000_100000000_00000001#32 = .ok (.crcBlk 0x01#8 256#9) ∧
    decode 0b0100_00000000000_000001001_10000000#32 = .ok (.crcSeg 0x80#8 9#9) ∧
    decode 0b0101_00000000000000000000_11111110#32 = .ok (.crcStore 0xFE#8) ∧
    decode 0b0110_00000000000000000000_00000111#32 = .ok (.crcCheck 0x07#8) := by decide

theorem test_encode_crc_words :
    encode (.crcByte 0x4C#8) = 0b0001_00000000000000000000_01001100#32 ∧
    encode (.crcMem 0x81#8) = 0b0010_00000000000000000000_10000001#32 ∧
    encode (.crcBlk 0x01#8 256#9) = 0b0011_00000000000_100000000_00000001#32 ∧
    encode (.crcSeg 0x80#8 9#9) = 0b0100_00000000000_000001001_10000000#32 ∧
    encode (.crcStore 0xFE#8) = 0b0101_00000000000000000000_11111110#32 ∧
    encode (.crcCheck 0x07#8) = 0b0110_00000000000000000000_00000111#32 := by decide

theorem test_decode_bit_field_words :
    decode 0b1000_0000000000000_0011_10000011000#32 = .ok (.bfRd 1048#11 4) ∧
    decode 0b1001_0000000000000_1111_00000000001#32 = .ok (.bfWr 1#11 16) ∧
    decode 0b1010_0000000000000000_0011_10010111#32 = .ok (.leRd 0x97#8 4) ∧
    decode 0b1011_0000000000000000_0000_10000001#32 = .ok (.leWr 0x81#8 1) := by decide

theorem test_encode_bit_field_words :
    encode (.bfRd 1048#11 4) = 0b1000_0000000000000_0011_10000011000#32 ∧
    encode (.bfWr 1#11 16) = 0b1001_0000000000000_1111_00000000001#32 ∧
    encode (.leRd 0x97#8 4) = 0b1010_0000000000000000_0011_10010111#32 ∧
    encode (.leWr 0x81#8 1) = 0b1011_0000000000000000_0000_10000001#32 := by decide

theorem test_decode_schema_field_words :
    decode 0b1100_000000000000000000000_0101101#32 = .ok (.fldRd 45#7) ∧
    decode 0b1101_000000000000000000000_1111111#32 = .ok (.fldWr 127#7) := by decide

theorem test_encode_schema_field_words :
    encode (.fldRd 45#7) = 0b1100_000000000000000000000_0101101#32 ∧
    encode (.fldWr 127#7) = 0b1101_000000000000000000000_1111111#32 := by decide

theorem test_decode_frame_words :
    decode 0b1110_000000000000000000000000000_0#32 = .ok (.frStamp .out) ∧
    decode 0b1110_000000000000000000000000000_1#32 = .ok (.frStamp .inp) ∧
    decode 0b1111_000000000000000000000000000_0#32 = .ok (.frCheck .out) ∧
    decode 0b1111_000000000000000000000000000_1#32 = .ok (.frCheck .inp) := by decide

theorem test_encode_frame_words :
    encode (.frStamp .out) = 0b1110_000000000000000000000000000_0#32 ∧
    encode (.frStamp .inp) = 0b1110_000000000000000000000000000_1#32 ∧
    encode (.frCheck .out) = 0b1111_000000000000000000000000000_0#32 ∧
    encode (.frCheck .inp) = 0b1111_000000000000000000000000000_1#32 := by decide

theorem test_decode_rejects_reserved_funcs :
    decode 0x00000005#32 = .error .reservedFunc ∧ decode 0x0000000F#32 = .error .reservedFunc := by decide

theorem test_decode_rejects_reserved_bits :
    decode 0x00000010#32 = .error .reservedBit ∧ decode 0x10000100#32 = .error .reservedBit ∧
    decode 0x30020000#32 = .error .reservedBit ∧ decode 0x70010000#32 = .error .reservedBit ∧
    decode 0x80008000#32 = .error .reservedBit ∧ decode 0xA0001000#32 = .error .reservedBit ∧
    decode 0xC00000C5#32 = .error .reservedBit ∧ decode 0xE0000002#32 = .error .reservedBit := by decide

theorem test_table_word : decodeTableWord 32 0x80001C18 = some (.bfRd 1048#11 4) ∧
    decodeTableWord 32 0x00000005 = none := by decide

theorem test_table_word_is_the_next_to_run :
    seen (step (start.withFetchWord 32 0x1000004C)) (fun t => (t.crc, t.pending)) = some (0xB5BE#16, []) := by decide

/-! ### One command each (95_test_vectors.md section 2) -/

/-- V4, V5. -/
theorem test_crcByte : 
    after 0x1000004C start (·.crc) = some 0xB5BE#16 ∧
      after 0x10000056 { start with crc := 0x1234#16 } (·.crc) = some 0xE993#16 := by decide

/-- V8. -/
theorem test_crcInit : 
    after 0x00000001 { start with crc := 0x1234#16 } (·.crc) = some 0xFFFF#16 := by decide

/-- V9. -/
theorem test_crcMem : 
    after 0x20000010 (load 0x10 [0x31] start) (·.crc) = some 0x947E#16 := by decide

/-- V10, V11, V19. -/
theorem test_crcBlk : 
    after 0x30000000 { start with crc := 0xABCD#16 } (·.crc) = some 0xABCD#16 ∧
    after 0x300001FF (load 0xFF [0x4C] start) (·.crc) = some 0xB5BE#16 ∧
      after 0x30000700 (load 0 [0x4C, 0, 0, 0, 0, 0, 0] start) (·.crc) = some 0xC496#16 := by decide +kernel

/-- V12, V14. -/
theorem test_crcBlk_range : 
    after 0x300002FF start record = some (1#32, 2#32, 0x300002FF#32) ∧
      after 0x30010100 start record = some (1#32, 2#32, 0x30010100#32) := by decide

/-- V16. -/
theorem test_crcSeg : 
    after 0x40000980 (load 0x80 [0x31, 0x32, 0x33, 0x34, 0x35, 0x36, 0x37, 0x38, 0x39] { start with crc := 0x1234#16 })
      (fun t => (t.crc, t.res)) = some (0x4B37#16, 0x4B37#16) := by decide +kernel

/-- S1. -/
theorem test_crcSeg_empty : 
    after 0x40000010 { start with crc := 0x1234#16 } (fun t => (t.crc, t.res)) = some (0xFFFF#16, 0xFFFF#16) := by decide

/-- V21. -/
theorem test_crcStore : 
    after 0x500000FE { start with crc := 0xC496#16 } (·.fb) = some [(0xFE, 0x96#8), (0xFF, 0xC4#8)] := by decide

/-- V22. -/
theorem test_crcStore_range : 
    after 0x500000FF { start with crc := 0xC496#16 } (fun t => (record t, t.fb)) =
      some ((1#32, 2#32, 0x500000FF#32), []) := by decide

/-- V24. -/
theorem test_crcCheck : 
    after 0x60000007 (load 7 [0x97, 0xC4] { start with crc := 0xC496#16 }) (fun t => (t.res, t.status)) =
      some (0xC497#16, 0x08#32) := by decide

/-- V25. -/
theorem test_crcCheck_clears_mismatch : 
    after 0x60000007 (load 7 [0x96, 0xC4] { start with crc := 0xC496#16, status := 0x08#32 })
      (fun t => (t.res, t.status)) = some (0xC496#16, 0x00#32) := by decide

/-- V26. -/
theorem test_nop : after 0x00000000 start id = some start := by decide

/-- V27. -/
theorem test_sclr : after 0x00000002 { start with status := 0x3E#32 } (·.status) = some 0x0E#32 := by decide

/-- V28. -/
theorem test_movrd : 
    after 0x00000003 { start with res := 0x1234#16 } (fun t => (t.d, t.res)) = some (0x1234#16, 0x1234#16) := by decide

/-- V29. -/
theorem test_movcr : 
    after 0x00000004 { start with crc := 0xB5BE#16 } (fun t => (t.res, t.crc)) = some (0xB5BE#16, 0xB5BE#16) := by decide

/-- V33. -/
theorem test_ldi : after 0x7000FFFF start (·.d) = some 0xFFFF#16 := by decide

/-- V38, V37. -/
theorem test_bfRd : 
    after 0x80004F85 (load 0xF0 [0x02, 0xAA] start) (·.res) = some 0x0155#16 ∧
      after 0x800078C8 (load 0x19 [0x34, 0x12] start) (·.res) = some 0x3412#16 := by decide

/-- V35, V36. -/
theorem test_bfRd_end : 
    after 0x800007FF (load 0xFF [0x01] start) (·.res) = some 0x0001#16 ∧
      after 0x80000FFF start record = some (1#32, 2#32, 0x80000FFF#32) := by decide

/-- V40. -/
theorem test_bfWr : 
    after 0x9000081B (load 0x03 [0x00] { start with d := 0x0005#16 }) (fun t => (t.fb, t.status)) =
      some ([(0x03, 0x08#8)], 0x20#32) := by decide

/-- V41, V42. -/
theorem test_bfWr_keeps_and_crosses : 
    after 0x9000001D (load 0x03 [0xFF] start) (·.fb) = some [(0x03, 0xFB#8)] ∧
      after 0x90004F85 (load 0xF0 [0x00, 0x00] { start with d := 0x0155#16 }) (·.fb) =
        some [(0xF0, 0x02#8), (0xF1, 0xAA#8)] := by decide

/-- V45, S3. -/
theorem test_leRd : 
    after 0xA0000F19 (load 0x19 [0x34, 0x12] start) (·.res) = some 0x1234#16 ∧
      after 0xA0000397 (load 0x97 [0xFA] start) (·.res) = some 0x000A#16 := by decide

/-- V43, V44. -/
theorem test_leRd_end : 
    after 0xA00007FF (load 0xFF [0xA5] start) (·.res) = some 0x00A5#16 ∧
      after 0xA00008FF start record = some (1#32, 2#32, 0xA00008FF#32) := by decide

/-- V46. -/
theorem test_leWr : 
    after 0xB0000B11 (load 0x11 [0x00, 0xF0] { start with d := 0x0ABC#16 }) (fun t => (t.fb, t.status)) =
      some ([(0x11, 0xBC#8), (0x12, 0xFA#8)], 0x00#32) := by decide

/-- V48, V47. -/
theorem test_leWr_overflow : 
    after 0xB0000313 (load 0x13 [0xF0] { start with d := 0x001F#16 }) (fun t => (t.fb, t.status)) =
      some ([(0x13, 0xFF#8)], 0x20#32) ∧
    after 0xB0000F40 (load 0x40 [0, 0] { start with d := 0xFFFF#16 }) (·.status) = some 0x00#32 := by decide

/-- V61, S5. -/
theorem test_fldRd : 
    after 0xC000002D (load 0x83 [0x11] start) (fun t => (t.res, t.status)) = some (0x0001#16, 0x10#32) ∧
      after 0xC000002D (load 0x83 [0x60] start) (fun t => (t.res, t.status)) = some (0x0006#16, 0x00#32) := by decide

/-- V50, V53. -/
theorem test_fldRd_bad_id : 
    after 0xC0000045 start record = some (1#32, 3#32, 0xC0000045#32) ∧
      after 0xC00000C5 start record = some (1#32, 1#32, 0xC00000C5#32) := by decide

/-- V59, V60. -/
theorem test_fldWr : 
    after 0xD000002D (load 0x83 [0x00] { start with d := 0x0016#16 }) (fun t => (t.fb, t.status)) =
      some ([(0x83, 0x60#8)], 0x20#32) ∧
    after 0xD000002D (load 0x83 [0x00] { start with d := 0x0017#16 }) (fun t => (t.fb, t.status)) =
      some ([(0x83, 0x00#8)], 0x30#32) := by decide

/-- V65, V63. -/
theorem test_fldWr_gap_bit : 
    after 0xD0000018 (load 0x18 [0x00] { start with d := 3#16, params := ⟨.zero, .contiguous⟩ }) (·.fb) =
      some [(0x18, 0x06#8)] ∧
    after 0xD0000044 (load 0xF0 [0x00, 0x00] { start with d := 0x03FF#16 }) (·.fb) =
      some [(0xF0, 0x07#8), (0xF1, 0xFE#8)] := by decide

/-- An Output frame whose only byte other than 0 is the magic, stamped as V66 says. -/
def stampedOut : State :=
  load 0x6D [0x01, 0xF4] (load 0x09 (List.replicate 100 0) (load 0 [0x4C, 0, 0, 0, 0, 0, 0, 0x96, 0xC4] start))

theorem fold_of_zero_bytes : crc16 (List.replicate 100 0x00#8) 0xFFFF#16 = 0xF401#16 := by
  rw [show List.replicate 100 0x00#8 = List.replicate 20 0 ++ (List.replicate 20 0 ++ (List.replicate 20 0 ++
    (List.replicate 20 0 ++ List.replicate 20 0))) from rfl]
  rw [crc16_concat, show crc16 (List.replicate 20 0) 0xFFFF#16 = 0x1B24#16 by decide +kernel]
  rw [crc16_concat, show crc16 (List.replicate 20 0) 0x1B24#16 = 0x0514#16 by decide +kernel]
  rw [crc16_concat, show crc16 (List.replicate 20 0) 0x0514#16 = 0xDBFF#16 by decide +kernel]
  rw [crc16_concat, show crc16 (List.replicate 20 0) 0xDBFF#16 = 0xEC5E#16 by decide +kernel]
  decide +kernel

/-- The data segment is 100 zero bytes, whatever the header holds. -/
theorem zero_data_crc (s : State) (h : fbBytes s 9 100 = List.replicate 100 0) : dataCrc s .out = 0xF401#16 :=
  (congrArg (crc16 · 0xFFFF#16) h).trans fold_of_zero_bytes

/-- V66. -/
theorem test_frStamp :
    after 0xE0000000 (load 0x6D [0, 0] (load 7 [0, 0] stampedOut)) (fun t => (t.crc, t.fb)) =
      some (0xF401#16, stampedOut.fb) := by
  show seen (execFrStamp .out _) _ = _
  rw [execFrStamp, zero_data_crc _ (by decide +kernel)]
  decide +kernel

/-- V67. -/
theorem test_frCheck_clean :
    after 0xF0000000 stampedOut (fun t => (t.res, t.status, t.crc)) = some (0x0000#16, 0x00#32, 0xF401#16) := by
  show seen (execFrCheck .out _) _ = _
  rw [execFrCheck, dataMismatch, zero_data_crc _ (by decide +kernel)]
  decide +kernel

/-- V68. -/
theorem test_frCheck_header :
    after 0xF0000000 (load 0x03 [0x01] stampedOut) (fun t => (t.res, t.status, t.crc)) =
      some (0x0001#16, 0x02#32, 0xF401#16) := by
  show seen (execFrCheck .out _) _ = _
  rw [execFrCheck, dataMismatch, zero_data_crc _ (by decide +kernel)]
  decide +kernel

/-! ### Faults and the host (95_test_vectors.md section 2.6) -/

/-- V31, V74. -/
theorem test_illegal : 
    after 0x0000000F start record = some (1#32, 1#32, 0x0000000F#32) ∧
      after 0x70001234 stopped (fun t => t) = some stopped := by decide

/-- V75. -/
theorem test_window_while_halted : 
    hostDid (.write 8 0x105 0xAA#32) stopped (fun t => (t.fb, t.response)) = some ([(0x05, 0xAA#8)], .okay) ∧
      hostDid (.read 8 0x105) (load 5 [0xAA] stopped) (·.response) = some (.byte 0xAA#8) := by decide

/-- V76, V77. -/
theorem test_status_write : 
    hostDid (.write 32 0x010 0x00000001#32) stopped (·.status) = some 0x01#32 ∧
      hostDid (.write 32 0x010 0x00000020#32) { start with status := 0x30#32 } (·.status) = some 0x10#32 := by decide

/-- V78, V79, V83. -/
theorem test_register_reads : 
    hostDid (.read 32 0x018) start (·.response) = some (.word 0x4C430100#32) ∧
      hostDid (.read 32 0x000) start (·.response) = some (.word 0x00000000#32) ∧
      hostDid (.read 32 0x00C) { start with crc := 0x1234#16 } (·.response) = some (.word 0x00001234#32) := by decide

/-- V80 to V82. -/
theorem test_slverr : 
    hostDid (.write 8 0x004 0x12#32) start (fun t => (t.d, t.response)) = some (0#16, .slverr) ∧
      hostDid (.read 32 0x100) start (·.response) = some .slverr ∧
      hostDid (.read 32 0x020) start (·.response) = some .slverr := by decide

/-- V83, V84. -/
theorem test_register_writes : 
    hostDid (.write 32 0x00C 0xABCD1234#32) start (·.crc) = some 0x1234#16 ∧
      hostDid (.write 32 0x008 0#32) { start with res := 6#16 } (fun t => (t.res, t.response)) = some (6#16, .okay) := by decide

/-- V85. -/
theorem test_reset : 
    hostDid .reset { stopped with d := 7#16, resets := 4 } id = some { start with resets := 5 } := by decide

/-! ### The schema ROM and its names (R192 to R194), row by row -/

/-- The row of id `id`: its name and its tuple. -/
def isRow (id : Nat) (name : String) (k : Config.FieldKind) (operand width : Nat) (e : Option Config.EnumTable) : Bool :=
  (schemaRom Config.defaultParams)[id]? == some ⟨k, operand, width, e⟩ && fieldIdNamed name == some id

theorem test_schema_rows_0_to_11 : (
    isRow 0 "OUT.MAGIC" .le 0x00 8 none &&
    isRow 1 "OUT.WATCHDOG" .le 0x02 8 (some .watchdog) &&
    isRow 2 "OUT.SYS.PULLUP_EN" .bf 27 1 none &&
    isRow 3 "OUT.SYS.LED_DIS" .bf 28 1 none &&
    isRow 4 "OUT.SYS.RETAIN_EN" .bf 29 1 none &&
    isRow 5 "OUT.SYS.RETAIN_COPY" .bf 30 1 none &&
    isRow 6 "OUT.SYS.SAFE" .bf 31 1 none &&
    isRow 7 "OUT.DDEB0" .le 0x09 8 none &&
    isRow 8 "OUT.DDEB1" .le 0x0A 8 none &&
    isRow 9 "OUT.DDEB2" .le 0x0B 8 none &&
    isRow 10 "OUT.DDEB3" .le 0x0C 8 none &&
    isRow 11 "OUT.DDEB4" .le 0x0D 8 none) = true := by decide +kernel

theorem test_schema_rows_12_to_23 : (
    isRow 12 "OUT.DDEB5" .le 0x0E 8 none &&
    isRow 13 "OUT.DDEB6" .le 0x0F 8 none &&
    isRow 14 "OUT.DDEB7" .le 0x10 8 none &&
    isRow 15 "OUT.DOUT" .le 0x11 12 none &&
    isRow 16 "OUT.RELAY" .le 0x13 4 none &&
    isRow 17 "OUT.GPIO_CTRL" .le 0x14 8 none &&
    isRow 18 "OUT.GPIO_OUT" .le 0x15 4 none &&
    isRow 19 "OUT.GDEB0" .le 0x16 8 none &&
    isRow 20 "OUT.GDEB1" .le 0x17 8 none &&
    isRow 21 "OUT.PWM0.PRESC" .bf 192 3 none &&
    isRow 22 "OUT.PWM0.EN_B" .bf 195 1 none &&
    isRow 23 "OUT.PWM0.EN_A" .bf 196 1 none) = true := by decide +kernel

theorem test_schema_rows_24_to_35 : (
    isRow 24 "OUT.PWM0.MODE" .bf 198 2 (some .pwmmode) &&
    isRow 25 "OUT.PWM0.SEC" .le 0x19 16 none &&
    isRow 26 "OUT.PWM0.CH0" .le 0x1B 16 none &&
    isRow 27 "OUT.PWM0.CH1" .le 0x1D 16 none &&
    isRow 28 "OUT.PWM1.PRESC" .bf 248 3 none &&
    isRow 29 "OUT.PWM1.EN_B" .bf 251 1 none &&
    isRow 30 "OUT.PWM1.EN_A" .bf 252 1 none &&
    isRow 31 "OUT.PWM1.MODE" .bf 254 2 (some .pwmmode) &&
    isRow 32 "OUT.PWM1.SEC" .le 0x20 16 none &&
    isRow 33 "OUT.PWM1.CH0" .le 0x22 16 none &&
    isRow 34 "OUT.PWM1.CH1" .le 0x24 16 none &&
    isRow 35 "OUT.PWM2.PRESC" .bf 304 3 none) = true := by decide +kernel

theorem test_schema_rows_36_to_47 : (
    isRow 36 "OUT.PWM2.EN_B" .bf 307 1 none &&
    isRow 37 "OUT.PWM2.EN_A" .bf 308 1 none &&
    isRow 38 "OUT.PWM2.MODE" .bf 310 2 (some .pwmmode) &&
    isRow 39 "OUT.PWM2.SEC" .le 0x27 16 none &&
    isRow 40 "OUT.PWM2.CH0" .le 0x29 16 none &&
    isRow 41 "OUT.PWM2.CH1" .le 0x2B 16 none &&
    isRow 42 "IN.FIRMWARE" .le 0x80 8 none &&
    isRow 43 "IN.HARDWARE" .le 0x81 8 none &&
    isRow 44 "IN.MODEL" .le 0x82 8 none &&
    isRow 45 "IN.ERRCODE" .bf 1048 4 (some .errcode) &&
    isRow 46 "IN.RUN" .bf 1055 1 none &&
    isRow 47 "IN.WARN.I2C" .bf 1060 1 none) = true := by decide +kernel

theorem test_schema_rows_48_to_59 : (
    isRow 48 "IN.WARN.VOLT" .bf 1061 1 none &&
    isRow 49 "IN.WARN.RETAINCRC" .bf 1062 1 none &&
    isRow 50 "IN.DIN" .le 0x89 16 none &&
    isRow 51 "IN.AIN0" .le 0x8B 16 none &&
    isRow 52 "IN.AIN1" .le 0x8D 16 none &&
    isRow 53 "IN.AIN2" .le 0x8F 16 none &&
    isRow 54 "IN.AIN3" .le 0x91 16 none &&
    isRow 55 "IN.AIN4" .le 0x93 16 none &&
    isRow 56 "IN.AIN5" .le 0x95 16 none &&
    isRow 57 "IN.GPIO_IN" .le 0x97 4 none &&
    isRow 58 "IN.TEMP0" .le 0x98 16 none &&
    isRow 59 "IN.HUM0" .le 0x9A 16 none) = true := by decide +kernel

theorem test_schema_rows_60_to_68 : (
    isRow 60 "IN.TEMP1" .le 0x9C 16 none &&
    isRow 61 "IN.HUM1" .le 0x9E 16 none &&
    isRow 62 "IN.TEMP2" .le 0xA0 16 none &&
    isRow 63 "IN.HUM2" .le 0xA2 16 none &&
    isRow 64 "IN.TEMP3" .le 0xA4 16 none &&
    isRow 65 "IN.HUM3" .le 0xA6 16 none &&
    isRow 66 "DAC.SEL" .bf 1920 1 none &&
    isRow 67 "DAC.EN" .bf 1924 1 none &&
    isRow 68 "DAC.VAL" .bf 1925 10 none) = true := by decide +kernel

/-- R196. -/
theorem test_enum_codes : 
    (List.range 16).filter (unmapped (some .errcode)) = [1, 7, 8, 9, 10, 11, 12, 13, 14, 15] ∧
      (List.range 13).filter (unmapped (some .watchdog)) = [11, 12] ∧
      (List.range 4).filter (unmapped (some .pwmmode)) = [] := by decide

/-! ### The assembler (R88, R89) -/

theorem test_assemble : 
    assemble (.crcSeg 0x80 9) = some 0x40000980#32 ∧ assemble (.bfWr 1925 10) = some 0x90004F85#32 ∧
      assemble (.leWr 0x11 12) = some 0xB0000B11#32 ∧ assemble (.bfRd 0 17) = none ∧ assemble (.crcBlk 0 512) = none := by decide

theorem test_pseudo : 
    (expandPseudo (.fldSet 1 5)).map assemble = [some 0x70000005#32, some 0xD0000001#32] ∧
      (expandPseudo (.fldCopy 45 45)).map assemble = [some 0xC000002D#32, some 0x00000003#32, some 0xD000002D#32] ∧
      (expandPseudo (.u16Rd 0x19)).map assemble = [some 0xA0000F19#32] ∧
      (expandPseudo .stamp ++ expandPseudo .check).map assemble = [some 0xE0000000#32, some 0xF0000001#32] := by decide

/-! ### Witnesses for the hypotheses of the statements -/

theorem test_witness_DecodeOfEncodeIsTheInstruction : 
    (Instr.bfRd 2047#11 1).WellFormed ∧ (Instr.leWr 0xFF#8 16).WellFormed ∧ Instr.nop.WellFormed := by decide

theorem test_witness_EveryAcceptedWordEncodesItsCommand : 
    decode 0x90004F85#32 = .ok (.bfWr 1925#11 10) ∧ decode 0xF0000001#32 = .ok (.frCheck .inp) := by decide

theorem test_witness_EveryWordIsOneCommandOrIllegal : 
    halted start = false ∧ illegalWord 0x00000005#32 = true ∧ illegalWord 0x00000004#32 = false ∧
      illegalWord 0x10000100#32 = true ∧ illegalWord 0x100000FF#32 = false := by decide

theorem test_witness_StepRunsTheDecodedCommand : 
    { start with pending := [.write 32 0x000 0x7000FFFF#32, .reset] }.pending =
        .write 32 0x000 0x7000FFFF#32 :: [.reset] ∧
      halted { start with pending := [.write 32 0x000 0x7000FFFF#32, .reset] } = false ∧
      decode 0x7000FFFF#32 = .ok (.ldi 0xFFFF#16) := by decide

theorem test_witness_WaitingBlockKeepsItsState : start.pending = [] := by decide

/-- A state and a word that meet the hypotheses of `RejectsReservedBits opcode lo len`. -/
def reservedWitness (s : State) (w : Word) (opcode : BitVec 4) (lo len : Nat) : Bool :=
  !halted s && decide (w.extractLsb' 28 4 = opcode) && decide (w.extractLsb' lo len ≠ 0)

/-- The lowest and the highest reserved bit of every opcode; the RejectsReservedBits clause of a command's statement. -/
theorem test_witness_RejectsReservedBits : (
    reservedWitness start 0x00000010#32 0x0#4 4 24 && reservedWitness start 0x08000000#32 0x0#4 4 24 &&
    reservedWitness start 0x10000100#32 0x1#4 8 20 && reservedWitness start 0x18000000#32 0x1#4 8 20 &&
    reservedWitness start 0x20000100#32 0x2#4 8 20 && reservedWitness start 0x28000000#32 0x2#4 8 20 &&
    reservedWitness start 0x30020000#32 0x3#4 17 11 && reservedWitness start 0x38000000#32 0x3#4 17 11 &&
    reservedWitness start 0x40020000#32 0x4#4 17 11 && reservedWitness start 0x48000000#32 0x4#4 17 11 &&
    reservedWitness start 0x50000100#32 0x5#4 8 20 && reservedWitness start 0x58000000#32 0x5#4 8 20 &&
    reservedWitness start 0x60000100#32 0x6#4 8 20 && reservedWitness start 0x68000000#32 0x6#4 8 20 &&
    reservedWitness start 0x70010000#32 0x7#4 16 12 && reservedWitness start 0x78000000#32 0x7#4 16 12 &&
    reservedWitness start 0x80008000#32 0x8#4 15 13 && reservedWitness start 0x88000000#32 0x8#4 15 13 &&
    reservedWitness start 0x90008000#32 0x9#4 15 13 && reservedWitness start 0x98000000#32 0x9#4 15 13 &&
    reservedWitness start 0xA0001000#32 0xA#4 12 16 && reservedWitness start 0xA8000000#32 0xA#4 12 16 &&
    reservedWitness start 0xB0001000#32 0xB#4 12 16 && reservedWitness start 0xB8000000#32 0xB#4 12 16 &&
    reservedWitness start 0xC0000080#32 0xC#4 7 21 && reservedWitness start 0xC8000000#32 0xC#4 7 21 &&
    reservedWitness start 0xD0000080#32 0xD#4 7 21 && reservedWitness start 0xD8000000#32 0xD#4 7 21 &&
    reservedWitness start 0xE0000002#32 0xE#4 1 27 && reservedWitness start 0xE8000000#32 0xE#4 1 27 &&
    reservedWitness start 0xF0000002#32 0xF#4 1 27 && reservedWitness start 0xF8000000#32 0xF#4 1 27) = true := by decide

theorem test_witness_SclrClearsEerrAndOvfOnly : halted stopped = true := by decide

theorem test_witness_CrcByteFoldsTheImmediate : 
    crcStep 0x0000#16 0x00#8 = 0x0000#16 ∧ crcStep 0xC001#16 0x00#8 = 0xC001#16 ∧ crcStep 0xFFFF#16 0x00#8 ≠ 0xFFFF#16 := by decide

/-- The only pairs that meet the hypotheses are the equal ones. -/
theorem test_witness_CrcStepIsInvertible : 
    crcStep 0x1234#16 0x56#8 = crcStep 0x1234#16 0x56#8 := by decide

/-- CrcBlkContinuesOverTheRange and CrcSegStartsFresh: both sides of the range check. -/
theorem test_witness_CrcBlkAndCrcSeg : 
    (0xFF#8).toNat + (1#9).toNat = 256 ∧ 256 < (0xFF#8).toNat + (2#9).toNat ∧ (0x00#8).toNat + (256#9).toNat = 256 ∧
      256 < (0x00#8).toNat + (257#9).toNat := by decide

/-- CrcStoreWritesTwoBytes and CrcCheckComparesTheStoredValue: the last address that is accepted, and address 0. -/
theorem test_witness_CrcStoreAndCrcCheck : (0xFE#8 : BitVec 8) ≠ 0xFF#8 ∧ (0x00#8 : BitVec 8) ≠ 0xFF#8 := by decide

theorem test_witness_AdjacentBlocksChain : 
    (0x85#8).toNat = (0x80#8).toNat + (5#9).toNat ∧ (128#9).toNat = (5#9).toNat + (123#9).toNat ∧
      (0x80#8).toNat + (128#9).toNat ≤ 256 := by decide

theorem test_witness_SegmentFollowedByItsCrcFoldsToZero : 
    (0xFE#8).toNat = (0x80#8).toNat + (126#9).toNat ∧ (128#9).toNat = (126#9).toNat + 2 ∧
      (0x80#8).toNat + (128#9).toNat ≤ 256 := by decide

/-- BfRdReadsTheStreamBits and BfWrWritesTheStreamBits: both sides of the range check. -/
theorem test_witness_BfRdAndBfWr : 
    (1 ≤ 1 ∧ 1 ≤ 16 ∧ (2047#11).toNat + 1 ≤ 2048) ∧ (1 ≤ 16 ∧ 16 ≤ 16 ∧ (2032#11).toNat + 16 ≤ 2048) ∧
      (1 ≤ 2 ∧ 2 ≤ 16 ∧ 2048 < (2047#11).toNat + 2) ∧ (1 ≤ 16 ∧ 16 ≤ 16 ∧ 2048 < (2033#11).toNat + 16) := by decide

/-- LeRdReadsTheVectorBits and LeWrWritesTheVectorBits: both sides of the range check. -/
theorem test_witness_LeRdAndLeWr : 
    (1 ≤ 8 ∧ 8 ≤ 16 ∧ (0xFF#8).toNat + (if 8 ≤ 8 then 1 else 2) ≤ 256) ∧
      (1 ≤ 16 ∧ 16 ≤ 16 ∧ (0xFE#8).toNat + (if 16 ≤ 8 then 1 else 2) ≤ 256) ∧
      (1 ≤ 9 ∧ 9 ≤ 16 ∧ 256 < (0xFF#8).toNat + (if 9 ≤ 8 then 1 else 2)) := by decide

theorem test_witness_MixedWidthViews : 
    (0xFE#8).toNat + 1 < 256 ∧ (2032#11).toNat = 8 * (0xFE#8).toNat := by decide

theorem test_witness_BitFieldRoundTrip : 
    (1 ≤ 10 ∧ 10 ≤ 16 ∧ (1925#11).toNat + 10 ≤ 2048 ∧ ({ start with d := 0x03FF#16 } : State).d.toNat < 2 ^ 10) ∧
      (1 ≤ 12 ∧ 12 ≤ 16 ∧ (0x11#8).toNat + (if 12 ≤ 8 then 1 else 2) ≤ 256 ∧
        ({ start with d := 0x0ABC#16 } : State).d.toNat < 2 ^ 12) := by decide

theorem test_witness_WritingAFieldKeepsDisjointFields : 
    (1 ≤ 3 ∧ 3 ≤ 16 ∧ 1 ≤ 1 ∧ 1 ≤ 16 ∧ (192#11).toNat + 3 ≤ 2048 ∧ (195#11).toNat + 1 ≤ 2048 ∧
        (192#11).toNat + 3 ≤ (195#11).toNat) ∧
      (1 ≤ 16 ∧ 16 ≤ 16 ∧ 1 ≤ 16 ∧ (0xFC#8).toNat + (if 16 ≤ 8 then 1 else 2) ≤ 256 ∧
        (0xFE#8).toNat + (if 16 ≤ 8 then 1 else 2) ≤ 256 ∧ 8 * (0xFC#8).toNat + 16 ≤ 8 * (0xFE#8).toNat) := by decide

theorem test_witness_WritingBackWhatWasReadKeepsFB : 
    (1 ≤ 16 ∧ 16 ≤ 16 ∧ (2032#11).toNat + 16 ≤ 2048) ∧
      (1 ≤ 9 ∧ 9 ≤ 16 ∧ (0xFE#8).toNat + (if 9 ≤ 8 then 1 else 2) ≤ 256) := by decide

theorem test_witness_BothOrdersAgreeInsideOneByte : 
    (1 ≤ 1 ∧ 1 ≤ 8 ∧ (2047#11).toNat + 1 = 8 * (0xFF#8).toNat + 8) ∧
      (1 ≤ 8 ∧ 8 ≤ 8 ∧ (0#11).toNat + 8 = 8 * (0x00#8).toNat + 8) := by decide

theorem test_witness_OverflowIsStickyAndExact :
    (∃ t, (1 ≤ 2 ∧ 2 ≤ 16 ∧ (27#11).toNat + 2 ≤ 2048) ∧ exec (.bfWr 27#11 2) start = .next t) ∧
      (∃ t, (1 ≤ 16 ∧ 16 ≤ 16 ∧ (0xFE#8).toNat + (if 16 ≤ 8 then 1 else 2) ≤ 256) ∧
        exec (.leWr 0xFE#8 16) start = .next t) ∧
      ∃ t, schemaEntry start.params 44#7 = some ⟨.le, 0x82, 8, none⟩ ∧ exec (.fldWr 44#7) start = .next t :=
  ⟨⟨_, by decide, rfl⟩, ⟨_, by decide, rfl⟩, ⟨_, by decide, rfl⟩⟩

theorem test_witness_SchemaEntriesLieInsideFB : 
    Config.FieldEntry.mk .bf 1925 10 none ∈ schemaRom ⟨.two, .contiguous⟩ ∧
      Config.FieldEntry.mk .le 0xA6 16 none ∈ schemaRom ⟨.zero, .mcp48x2⟩ := by decide

theorem test_witness_PwmGapBitMovesTheModeFieldsOnly : 
    ((23#7 : BitVec 7) ≠ 24#7 ∧ (23#7 : BitVec 7) ≠ 31#7 ∧ (23#7 : BitVec 7) ≠ 38#7) ∧ 0x18 ∈ [0x18, 0x1F, 0x26] ∧
      Config.FieldEntry.mk .bf 198 2 (some .pwmmode) ∈ schemaRom ⟨.two, .contiguous⟩ ∧
      Config.FieldEntry.mk .bf 197 2 (some .pwmmode) ∈ schemaRom ⟨.zero, .contiguous⟩ := by decide

theorem test_witness_DacLayoutMovesTwoFieldsOnly : (65#7).toNat < 66 ∧ (0#7).toNat < 66 := by decide

/-- FldRdReadsTheSchemaField and FldWrWritesTheSchemaField: both sides of the id check. -/
theorem test_witness_FldRdAndFldWr : (68#7).toNat < 69 ∧ 69 ≤ (69#7).toNat ∧ 69 ≤ (127#7).toNat := by decide

/-- FldWrWritesTheSchemaField: both cases of the enum check. -/
theorem test_witness_FldWr_codes : 
    codeUnmapped (some .errcode) (truncated { start with d := 0x0017#16 } 4) = true ∧
      codeUnmapped (some .errcode) (truncated { start with d := 0x0016#16 } 4) = false := by decide

theorem test_witness_EnumFailureIsLoudButNoFault : 
    schemaEntry start.params 45#7 = some ⟨.bf, 1048, 4, some .errcode⟩ ∧
      (after 0xC000002D (load 0x83 [0x10] start) fun t => codeUnmapped (some .errcode) t.res.toNat) = some true ∧
      codeUnmapped (some .errcode) (truncated { start with d := 0x0007#16 } 4) = true ∧
      statusBit .eerr { start with status := 0x10#32 } = true := by decide

theorem test_witness_FieldRoundTrip : 
    schemaEntry start.params 45#7 = some ⟨.bf, 1048, 4, some .errcode⟩ ∧
      ({ start with d := 6#16 } : State).d.toNat < 2 ^ 4 ∧
      codeUnmapped (some .errcode) ({ start with d := 6#16 } : State).d.toNat = false := by decide

theorem test_witness_DistinctFieldsNeverShareABit : (67#7 : BitVec 7) ≠ 68#7 ∧ (67#7).toNat < 69 ∧ (68#7).toNat < 69 := by decide

theorem test_witness_BitOrderFidelity : 
    readByte (load 0x97 [0x0A] start) 0x97 = 0b00001010#8 ∧ readByte (load 0x83 [0x01] start) 0x83 = 0b00000001#8 ∧
      readByte (load 0x83 [0x60] start) 0x83 = 0b01100000#8 := by decide

theorem test_witness_StampTouchesNoFieldAndIsIdempotent : 
    (0#7).toNat < 69 ∧ (68#7).toNat < 69 ∧ (0x2D ≤ 0x2D ∧ 0x6C ≤ 0x6C) ∧ 0xAD ≤ 0xEC ∧ 0xEC ≤ 0xEC := by decide

theorem test_witness_CheckDetectsEverySingleBitError : 
    0 < 8 ∧ 7 < 8 ∧ (baseOf .inp ≤ 0x80 ∧ 0x80 ≤ baseOf .inp + 6) ∧ (baseOf .out ≤ 0x06 ∧ 0x06 ≤ baseOf .out + 6) ∧
      (baseOf .out + 9 ≤ 0x09 ∧ 0x09 ≤ baseOf .out + 108) ∧ (baseOf .inp + 9 ≤ 0xEC ∧ 0xEC ≤ baseOf .inp + 108) := by decide

theorem test_witness_FaultsArePrecise :
    ∃ t, halted start = false ∧ commandPort 0x300002FF#32 start = .next t ∧ halted t = true :=
  ⟨_, by decide, rfl, by decide⟩

theorem test_witness_FaultCausesAndPriority : 
    halted start = false ∧ illegalWord 0xC00000C5#32 = true ∧
      ((Instr.fldRd 69#7).WellFormed ∧ badFieldId (.fldRd 69#7) = true) ∧
      ((Instr.leRd 0xFF#8 9).WellFormed ∧ rangeFails (.leRd 0xFF#8 9) = true) ∧
      ((Instr.leRd 0xFF#8 8).WellFormed ∧ badFieldId (.leRd 0xFF#8 8) = false ∧ rangeFails (.leRd 0xFF#8 8) = false) := by decide

/-- Every form of pending operation that the statements about the host start from, on a halted and on a running block. -/
def withOp (op : HostOp) (s : State) : State := { s with pending := op :: [.reset] }

theorem test_witness_HaltedBlockIgnoresCommands : 
    halted (withOp (.write 32 0x000 0x70001234#32) stopped) = true ∧
      (withOp (.write 32 0x000 0x70001234#32) stopped).pending = .write 32 0x000 0x70001234#32 :: [.reset] ∧
      (withOp (.read 32 0x01C) stopped).pending = .read 32 0x01C :: [.reset] ∧
      (withOp (.read 8 (0x100 + 255)) stopped).pending = .read 8 (0x100 + 255) :: [.reset] ∧
      (withOp (.write 32 0x004 1#32) stopped).pending = .write 32 0x004 1#32 :: [.reset] ∧
      (withOp (.write 32 0x00C 1#32) stopped).pending = .write 32 0x00C 1#32 :: [.reset] ∧
      (withOp (.write 32 0x010 1#32) stopped).pending = .write 32 0x010 1#32 :: [.reset] ∧
      (withOp (.write 8 (0x100 + 255) 1#32) stopped).pending = .write 8 (0x100 + 255) 1#32 :: [.reset] := by decide

theorem test_witness_OnlyResetLeavesTheHaltedState :
    (halted (withOp .reset stopped) = true ∧ ∃ rest, (withOp .reset stopped).pending = .reset :: rest) ∧
      halted stopped = true ∧ ¬ ∃ rest, stopped.pending = .reset :: rest :=
  ⟨⟨by decide, _, rfl⟩, by decide, fun h => nomatch h⟩

theorem test_witness_RegisterAccessesFollowTheMap : 
    (withOp (.read 32 0x018) start).pending = .read 32 0x018 :: [.reset] ∧
      (withOp (.write 32 0x004 1#32) start).pending = .write 32 0x004 1#32 :: [.reset] ∧
      (withOp (.write 32 0x00C 1#32) start).pending = .write 32 0x00C 1#32 :: [.reset] ∧
      (withOp (.write 32 0x01C 1#32) start).pending = .write 32 0x01C 1#32 :: [.reset] := by decide

theorem test_witness_StatusWriteOneClearsEerrAndOvfOnly : 
    (withOp (.write 32 0x010 0x20#32) start).pending = .write 32 0x010 0x20#32 :: [.reset] ∧ 31 < 32 := by decide

theorem test_witness_HostAccessRules : 
    (withOp (.read 32 0x01C) start).pending = .read 32 0x01C :: [.reset] ∧ (0x01C < 0x20 ∧ 0x01C % 4 = 0) ∧
      (withOp (.write 8 0x1FF 1#32) start).pending = .write 8 0x1FF 1#32 :: [.reset] ∧ (0x100 ≤ 0x1FF ∧ 0x1FF < 0x200) ∧
      (withOp (.read 8 0x200) start).pending = .read 8 0x200 :: [.reset] ∧ ¬ (0x100 ≤ 0x200 ∧ 0x200 < 0x200) ∧
      (withOp (.write 32 0x01E 1#32) start).pending = .write 32 0x01E 1#32 :: [.reset] ∧ ¬ 0x01E % 4 = 0 ∧
      (withOp (.read 16 0x000) start).pending = .read 16 0x000 :: [.reset] ∧ ¬ (16 = 32) ∧ ¬ (16 = 8) := by decide

theorem test_witness_ReadsHaveNoSideEffect : 
    (withOp (.read 8 0x105) start).pending = .read 8 0x105 :: [.reset] ∧
      (withOp (.read 32 0x020) start).pending = .read 32 0x020 :: [.reset] := by decide

theorem test_witness_ResetPutsEveryRegisterBack : (withOp .reset stopped).pending = .reset :: [.reset] := by decide

theorem test_witness_EveryCommandWritesOnlyItsRegisters :
    (∃ t, exec (.crcStore 0xFE#8) start = .next t ∧ badFieldId (.crcStore 0xFE#8) = false ∧
        rangeFails (.crcStore 0xFE#8) = false) ∧
      (∃ t, exec (.crcStore 0xFF#8) start = .next t ∧ rangeFails (.crcStore 0xFF#8) = true) ∧
      ∃ t, exec (.fldRd 69#7) start = .next t ∧ badFieldId (.fldRd 69#7) = true :=
  ⟨⟨_, rfl, rfl, rfl⟩, ⟨_, rfl, rfl⟩, ⟨_, rfl, rfl⟩⟩

theorem test_witness_StepNeverChangesTheBuild :
    ∃ t, step (withOp (.write 32 0x000 0x7000FFFF#32) start) = .next t := ⟨_, rfl⟩

theorem test_witness_StepKeepsTheInvariant :
    ∃ t, (withOp (.write 32 0x000 0x00000005#32) (load 0xFF [1] start)).Inv ∧
      step (withOp (.write 32 0x000 0x00000005#32) (load 0xFF [1] start)) = .next t := ⟨_, by decide, rfl⟩

end Sys2Proof.Tests
end

/-! SUPPORT. Proofs of the statements of 10_state.md: what every step and every command can do, and what they keep. -/

namespace Sys2Proof.Machine

/-! ### STATUS under a mask -/

/-- Writing a bit that the mask covers is not seen outside the mask. -/
theorem writeBit_and_not {n : Nat} (x m : BitVec n) (k : Nat) (b : Bool) (hm : m.getLsbD k = true) :
    writeBit x k b &&& ~~~m = x &&& ~~~m := by
  refine BitVec.eq_of_getLsbD_eq fun j hj => ?_
  rw [BitVec.getLsbD_and, BitVec.getLsbD_and, getLsbD_writeBit _ _ _ _ hj]
  by_cases h : j = k
  · simp [h, hm]
  · simp [h]

theorem setStatusBit_status_and_not (b : StatusBit) (v : Bool) (s : State) (m : Word) (hm : m.getLsbD b.pos = true) :
    (setStatusBit b v s).status &&& ~~~m = s.status &&& ~~~m := writeBit_and_not _ _ _ _ hm

theorem raiseFlag_status_and_not (b : StatusBit) (v : Bool) (s : State) (m : Word) (hm : m.getLsbD b.pos = true) :
    (raiseFlag b v s).status &&& ~~~m = s.status &&& ~~~m := by
  cases v
  · rfl
  · exact setStatusBit_status_and_not b true s m hm

/-- Two words that agree outside a mask agree at every bit outside it. -/
theorem getLsbD_eq_of_and_not_eq {x y m : Word} {k : Nat} (h : x &&& ~~~m = y &&& ~~~m) (hk : k < 32)
    (hm : m.getLsbD k = false) : x.getLsbD k = y.getLsbD k := by
  simpa only [BitVec.getLsbD_and, BitVec.getLsbD_not, hk, hm, decide_true, Bool.not_false, Bool.and_true] using
    congrArg (·.getLsbD k) h

/-- The bits of STATUS that a host write of 1 clears are bits 4 and 5 (R27). -/
theorem getLsbD_statusW1cMask {k : Nat} (hk : k < 32) : statusW1cMask.getLsbD k = decide (k = 4 ∨ k = 5) := by
  revert k
  decide

/-- Every bit of STATUS after a host write to it (R27). -/
theorem getLsbD_clearStatusW1c (data : Word) (s : State) {k : Nat} (hk : k < 32) :
    (clearStatusW1c data s).status.getLsbD k =
      (s.status.getLsbD k && !(decide (k = 4 ∨ k = 5) && data.getLsbD k)) := by
  rw [← getLsbD_statusW1cMask hk, Bool.and_comm (statusW1cMask.getLsbD k)]
  simp [hk]

/-! ### The schema ROM: its ids, and its fields inside FB (R190) -/

theorem schemaRom_length (p : Config.Params) : (schemaRom p).length = 69 := by
  obtain ⟨gap, dac⟩ := p
  cases dac <;> rfl

/-- The assigned ids are those below 69. -/
theorem schemaEntry_cases (p : Config.Params) (id : BitVec 7) :
    (69 ≤ id.toNat ∧ schemaEntry p id = none) ∨ (id.toNat < 69 ∧ ∃ e, schemaEntry p id = some e) := by
  by_cases h : id.toNat < 69
  · exact .inr ⟨h, _, List.getElem?_eq_getElem (by rwa [schemaRom_length])⟩
  · exact .inl ⟨by omega, List.getElem?_eq_none (by rw [schemaRom_length]; omega)⟩

/-- The field of a schema entry lies inside FB, as the range check of its kind would have it (R161). -/
def entryInsideFB (e : Config.FieldEntry) : Bool :=
  match e.kind with
  | .bf => decide (e.operand + e.width ≤ Config.fbBits)
  | .le => decide (e.width ≤ 16) && decide (e.operand + nbytes e.width ≤ Config.fbSize)

theorem schemaRom_insideFB (p : Config.Params) : (schemaRom p).all entryInsideFB = true := by
  obtain ⟨gap, dac⟩ := p
  cases gap <;> cases dac <;> decide

theorem schemaEntry_insideFB {p : Config.Params} {id : BitVec 7} {e : Config.FieldEntry}
    (h : schemaEntry p id = some e) : entryInsideFB e = true :=
  List.all_eq_true.mp (schemaRom_insideFB p) e (List.mem_of_getElem? h)

theorem exec_fldRd_unassigned {s : State} {id : BitVec 7} (h : schemaEntry s.params id = none) :
    exec (.fldRd id) s = .next (raiseFault .badField (encode (.fldRd id)) s) := by
  simp [exec, execFldRd, h]

theorem exec_fldRd_assigned {s : State} {id : BitVec 7} {e : Config.FieldEntry} (h : schemaEntry s.params id = some e) :
    exec (.fldRd id) s = .next (readEntry e s) := by
  simp [exec, execFldRd, h]

theorem exec_fldWr_unassigned {s : State} {id : BitVec 7} (h : schemaEntry s.params id = none) :
    exec (.fldWr id) s = .next (raiseFault .badField (encode (.fldWr id)) s) := by
  simp [exec, execFldWr, h]

theorem exec_fldWr_assigned {s : State} {id : BitVec 7} {e : Config.FieldEntry} (h : schemaEntry s.params id = some e) :
    exec (.fldWr id) s = .next (writeEntry e s) := by
  simp [exec, execFldWr, h]

/-! ### Everything a command can do: complete and write only its registers, or raise its fault -/

/-- What a command can write besides STATUS, CAUSE and FCMD (R21, R22, R23, R50). -/
inductive Target where
  | res
  | d
  | crc
  | fb
  deriving DecidableEq

/-- What each command can write besides STATUS, CAUSE and FCMD; `statusWrites` says it of STATUS. -/
@[simp] def registerWrites (i : Instr) : List Target :=
  match i with
  | .nop => []
  | .crcInit => [.crc]
  | .sclr => []
  | .movrd => [.d]
  | .movcr => [.res]
  | .crcByte _ => [.crc]
  | .crcMem _ => [.crc]
  | .crcBlk _ _ => [.crc]
  | .crcSeg _ _ => [.crc, .res]
  | .crcStore _ => [.fb]
  | .crcCheck _ => [.res]
  | .ldi _ => [.d]
  | .bfRd _ _ => [.res]
  | .bfWr _ _ => [.fb]
  | .leRd _ _ => [.res]
  | .leWr _ _ => [.fb]
  | .fldRd _ => [.res]
  | .fldWr _ => [.fb]
  | .frStamp _ => [.crc, .fb]
  | .frCheck _ => [.res, .crc]

/-- `t` differs from `s` in what a completed `i` can write, and in nothing else. -/
structure WritesOnlyItsOwn (i : Instr) (s t : State) : Prop where
  res : .res ∉ registerWrites i → t.res = s.res
  d : .d ∉ registerWrites i → t.d = s.d
  crc : .crc ∉ registerWrites i → t.crc = s.crc
  fb : .fb ∉ registerWrites i → t.fb = s.fb
  status : t.status &&& ~~~statusWrites i = s.status &&& ~~~statusWrites i
  cause : t.cause = s.cause
  fcmd : t.fcmd = s.fcmd
  params : t.params = s.params
  resets : t.resets = s.resets
  pending : t.pending = s.pending
  response : t.response = s.response

/-- What can become of a command: it completes, or it raises the fault of one of its checks (R250, R252). -/
inductive CommandOutcome (i : Instr) (s t : State) : Prop where
  | completes (hbad : badFieldId i = false) (hrange : rangeFails i = false) (hwrites : WritesOnlyItsOwn i s t)
  | faults (hcheck : badFieldId i = true ∨ rangeFails i = true)
      (ht : t = raiseFault (if badFieldId i then .badField else .range) (encode i) s)

/-- A command without a check. -/
theorem CommandOutcome.of_next {i : Instr} {s u t : State} (h : Host.Outcome.next u = (.next t : Result))
    (hbad : badFieldId i = false) (hrange : rangeFails i = false) (hu : WritesOnlyItsOwn i s u) :
    CommandOutcome i s t := by
  obtain rfl := Host.Outcome.next.inj h
  exact .completes hbad hrange hu

/-- A command with a range check. -/
theorem CommandOutcome.of_ifInRange {i : Instr} {ok : Bool} {s u t : State} (h : ifInRange ok i s u = .next t)
    (hbad : badFieldId i = false) (hrange : ok = false ↔ rangeFails i = true) (hu : WritesOnlyItsOwn i s u) :
    CommandOutcome i s t := by
  obtain ⟨hok, rfl⟩ | ⟨hok, rfl⟩ := ifInRange_next h
  · exact .completes hbad (by simpa [hok] using hrange) hu
  · exact .faults (.inr (hrange.mp hok)) (by rw [hbad, if_neg Bool.false_ne_true])

/-- FLD.RD of an assigned id writes RES, and EERR of STATUS (R197, R198). -/
theorem readEntry_writesOnlyItsOwn (id : BitVec 7) (e : Config.FieldEntry) (s : State) :
    WritesOnlyItsOwn (.fldRd id) s (readEntry e s) := by
  constructor
  case status => exact raiseFlag_status_and_not _ _ _ _ (by simp [statusWrites, StatusBit.pos])
  all_goals simp [readEntry]

/-- FLD.WR of an assigned id writes FB, and OVF and EERR of STATUS (R199). -/
theorem writeEntry_writesOnlyItsOwn (id : BitVec 7) (e : Config.FieldEntry) (s : State) :
    WritesOnlyItsOwn (.fldWr id) s (writeEntry e s) := by
  have hovf := raiseFlag_status_and_not .ovf (overflows e.width s.d) s (statusWrites (.fldWr id))
    (by simp [statusWrites, StatusBit.pos])
  simp only [writeEntry]
  split
  · constructor
    case status =>
      exact (setStatusBit_status_and_not _ _ _ _ (by simp [statusWrites, StatusBit.pos])).trans hovf
    all_goals simp
  · constructor
    case status => rwa [fieldWrite_status]
    all_goals simp

/-- FR.CHECK writes RES, CRC, and HCRC_ERR and DCRC_ERR of STATUS (R232). -/
theorem reportFrame_writesOnlyItsOwn (f : Frame) (he de : Bool) (c : Half) (s : State) :
    WritesOnlyItsOwn (.frCheck f) s (reportFrame he de c s) := by
  constructor
  case status =>
    exact (setStatusBit_status_and_not _ _ _ _ (by simp [statusWrites, StatusBit.pos])).trans
      (setStatusBit_status_and_not _ _ _ _ (by simp [statusWrites, StatusBit.pos]))
  all_goals simp

/-- FR.STAMP writes CRC and FB (R231). -/
theorem stamp_writesOnlyItsOwn (f : Frame) (a b : Nat) (x y z : Half) (s : State) :
    WritesOnlyItsOwn (.frStamp f) s { memWrite2 a x (memWrite2 b y s) with crc := z } := by
  constructor <;> simp

/-- Everything a command can do. -/
theorem exec_outcome {i : Instr} {s t : State} (h : exec i s = .next t) : CommandOutcome i s t := by
  cases i with
  | nop => exact .of_next h rfl rfl (by constructor <;> simp)
  | crcInit => exact .of_next h rfl rfl (by constructor <;> simp)
  | movrd => exact .of_next h rfl rfl (by constructor <;> simp)
  | movcr => exact .of_next h rfl rfl (by constructor <;> simp)
  | ldi imm16 => exact .of_next h rfl rfl (by constructor <;> simp)
  | crcByte imm8 => exact .of_next h rfl rfl (by constructor <;> simp)
  | crcMem a => exact .of_next h rfl rfl (by constructor <;> simp)
  | sclr =>
    refine .of_next h rfl rfl ?_
    constructor
    case status =>
      exact (setStatusBit_status_and_not _ _ _ _ (by simp [statusWrites, StatusBit.pos])).trans
        (setStatusBit_status_and_not _ _ _ _ (by simp [statusWrites, StatusBit.pos]))
    all_goals simp
  | crcBlk a len =>
    exact .of_ifInRange h rfl (by simp [bytesInRange_false_iff, rangeFails]) (by constructor <;> simp)
  | crcSeg a len =>
    exact .of_ifInRange h rfl (by simp [bytesInRange_false_iff, rangeFails]) (by constructor <;> simp)
  | crcStore a =>
    exact .of_ifInRange h rfl (by simp [bytesInRange_false_iff, rangeFails]) (by constructor <;> simp)
  | crcCheck a =>
    refine .of_ifInRange h rfl (by simp [bytesInRange_false_iff, rangeFails]) ?_
    constructor
    case status => exact setStatusBit_status_and_not _ _ _ _ (by simp [statusWrites, StatusBit.pos])
    all_goals simp
  | bfRd bit width =>
    exact .of_ifInRange h rfl (by simp [bitsInRange_false_iff, rangeFails]) (by constructor <;> simp)
  | bfWr bit width =>
    refine .of_ifInRange h rfl (by simp [bitsInRange_false_iff, rangeFails]) ?_
    constructor
    case status => rw [bfWrite_status]; exact raiseFlag_status_and_not _ _ _ _ (by simp [statusWrites, StatusBit.pos])
    all_goals simp
  | leRd a width =>
    exact .of_ifInRange h rfl (by simp [bytesInRange_false_iff, rangeFails, nbytes]) (by constructor <;> simp)
  | leWr a width =>
    refine .of_ifInRange h rfl (by simp [bytesInRange_false_iff, rangeFails, nbytes]) ?_
    constructor
    case status => rw [leWrite_status]; exact raiseFlag_status_and_not _ _ _ _ (by simp [statusWrites, StatusBit.pos])
    all_goals simp
  | fldRd id =>
    obtain ⟨hid, hnone⟩ | ⟨hid, e, hsome⟩ := schemaEntry_cases s.params id
    · have hbad : badFieldId (.fldRd id) = true := decide_eq_true hid
      rw [exec_fldRd_unassigned hnone] at h
      exact .faults (.inl hbad) (by rw [if_pos hbad, Host.Outcome.next.inj h])
    · rw [exec_fldRd_assigned hsome] at h
      exact .of_next h (by simpa [badFieldId] using hid) rfl (readEntry_writesOnlyItsOwn id e s)
  | fldWr id =>
    obtain ⟨hid, hnone⟩ | ⟨hid, e, hsome⟩ := schemaEntry_cases s.params id
    · have hbad : badFieldId (.fldWr id) = true := decide_eq_true hid
      rw [exec_fldWr_unassigned hnone] at h
      exact .faults (.inl hbad) (by rw [if_pos hbad, Host.Outcome.next.inj h])
    · rw [exec_fldWr_assigned hsome] at h
      exact .of_next h (by simpa [badFieldId] using hid) rfl (writeEntry_writesOnlyItsOwn id e s)
  | frStamp f =>
    obtain ⟨hc, dc, -, -, rfl⟩ := execFrStamp_next h
    exact .completes rfl rfl (stamp_writesOnlyItsOwn ..)
  | frCheck f =>
    obtain ⟨he, de, dc, -, -, -, rfl⟩ := execFrCheck_next h
    exact .completes rfl rfl (reportFrame_writesOnlyItsOwn ..)

/-! ### The decoder gives well-formed commands (R82) -/

theorem widthOk_widthField (w : Word) (lo : Nat) : widthOk (widthField w lo) = true :=
  decide_eq_true ⟨Nat.le_add_left 1 _, (w.extractLsb' lo 4).isLt⟩

theorem whenZero_wellFormed {w : Word} {lo len : Nat} {i j : Instr} (hi : i.WellFormed)
    (h : whenZero w lo len i = .ok j) : j.WellFormed := by
  unfold whenZero at h
  split at h
  · obtain rfl := Except.ok.inj h
    exact hi
  · cases h

theorem sysFunc_wellFormed {func : BitVec 4} {i : Instr} (h : sysFunc func = .ok i) : i.WellFormed := by
  unfold sysFunc at h
  split at h <;> cases h <;> rfl

theorem decodeSys_wellFormed {w : Word} {i : Instr} (h : decodeSys w = .ok i) : i.WellFormed := by
  unfold decodeSys at h
  split at h
  · exact sysFunc_wellFormed h
  · cases h

/-- A width is 1 to 16 in every command that a word encodes. -/
theorem decode_wellFormed {w : Word} {i : Instr} (h : decode w = .ok i) : i.WellFormed := by
  unfold decode decodeOpcode at h
  split at h
  · exact decodeSys_wellFormed h
  all_goals refine whenZero_wellFormed ?_ h
  case h_9 => exact widthOk_widthField w 11
  case h_10 => exact widthOk_widthField w 11
  case h_11 => exact widthOk_widthField w 8
  case h_12 => exact widthOk_widthField w 8
  all_goals rfl

/-! ### Every command keeps FB canonical -/

/-- Writing a field that lies inside FB. -/
theorem fieldWrite_keeps_wf {e : Config.FieldEntry} (v : BitVec e.width) {s : State} (he : entryInsideFB e = true)
    (h : Memory.wf s.fb = true) : Memory.wf (fieldWrite e v s).fb = true := by
  obtain ⟨kind, operand, width, enum⟩ := e
  cases kind with
  | bf => exact bfWrite_keeps_wf operand v s h (of_decide_eq_true he)
  | le =>
    obtain ⟨hwidth, hrange⟩ := Bool.and_eq_true_iff.mp he
    exact leWrite_keeps_wf operand v s h (of_decide_eq_true hwidth) (of_decide_eq_true hrange)

theorem writeEntry_keeps_wf {e : Config.FieldEntry} {s : State} (he : entryInsideFB e = true)
    (h : Memory.wf s.fb = true) : Memory.wf (writeEntry e s).fb = true := by
  have ht : Memory.wf (raiseFlag .ovf (overflows e.width s.d) s).fb = true := by rwa [raiseFlag_fb]
  simp only [writeEntry]
  split
  · exact ht
  · exact fieldWrite_keeps_wf _ he ht

/-- Both stored CRCs of a frame lie inside FB (R230). -/
theorem storedCrcs_insideFB (f : Frame) :
    headerCrcAt f + 2 ≤ Config.fbSize ∧ dataCrcAt f + 2 ≤ Config.fbSize := by
  cases f <;> decide

theorem ifInRange_keeps_wf {ok : Bool} {i : Instr} {s u t : State} (h : ifInRange ok i s u = .next t)
    (hs : Memory.wf s.fb = true) (hu : ok = true → Memory.wf u.fb = true) : Memory.wf t.fb = true := by
  obtain ⟨hok, rfl⟩ | ⟨-, rfl⟩ := ifInRange_next h
  · exact hu hok
  · exact hs

theorem exec_keeps_wf {i : Instr} {s t : State} (hi : i.WellFormed) (h : exec i s = .next t)
    (hs : Memory.wf s.fb = true) : Memory.wf t.fb = true := by
  by_cases hfb : Target.fb ∉ registerWrites i
  · obtain ⟨-, -, hwrites⟩ | ⟨-, rfl⟩ := exec_outcome h
    · rwa [hwrites.fb hfb]
    · exact hs
  cases i with
  | crcStore a =>
    exact ifInRange_keeps_wf h hs fun hok => memWrite2_keeps_wf _ _ _ hs ((bytesInRange_iff _ _).mp hok)
  | bfWr bit width =>
    exact ifInRange_keeps_wf h hs fun hok =>
      bfWrite_keeps_wf _ _ _ (by rwa [raiseFlag_fb]) ((bitsInRange_iff _ _).mp hok)
  | leWr a width =>
    exact ifInRange_keeps_wf h hs fun hok =>
      leWrite_keeps_wf _ _ _ (by rwa [raiseFlag_fb]) (of_decide_eq_true hi).2 ((bytesInRange_iff _ _).mp hok)
  | fldWr id =>
    obtain ⟨-, hnone⟩ | ⟨-, e, hsome⟩ := schemaEntry_cases s.params id
    · rw [exec_fldWr_unassigned hnone] at h
      obtain rfl := Host.Outcome.next.inj h
      exact hs
    · rw [exec_fldWr_assigned hsome] at h
      obtain rfl := Host.Outcome.next.inj h
      exact writeEntry_keeps_wf (schemaEntry_insideFB hsome) hs
  | frStamp f =>
    obtain ⟨hc, dc, -, -, rfl⟩ := execFrStamp_next h
    obtain ⟨hheader, hdata⟩ := storedCrcs_insideFB f
    exact memWrite2_keeps_wf _ _ _ (memWrite2_keeps_wf _ _ _ hs hheader) hdata
  | _ => simp at hfb

/-! ### The invariant -/

theorem inv_iff (s : State) :
    s.Inv ↔ Memory.wf s.fb = true ∧ statusReservedZero s = true ∧ faultRecordOk s = true := by
  simp [State.Inv, State.inv, and_assoc]

/-- The invariant's first part (R50). -/
theorem fb_wf_of_inv {s : State} (hs : s.Inv) : Memory.wf s.fb = true := ((inv_iff s).mp hs).1

/-- The invariant speaks of FB's form, STATUS's reserved bits, FAULT, CAUSE and FCMD alone. -/
theorem inv_of_kept {s t : State} (hs : s.Inv) (hfb : Memory.wf t.fb = true)
    (hreserved : t.status.extractLsb' 6 26 = s.status.extractLsb' 6 26) (hhalted : halted t = halted s)
    (hcause : t.cause = s.cause) (hfcmd : t.fcmd = s.fcmd) : t.Inv := by
  obtain ⟨-, hzero, hrecord⟩ := (inv_iff s).mp hs
  refine (inv_iff t).mpr ⟨hfb, ?_, ?_⟩
  · rwa [statusReservedZero, hreserved]
  · rwa [faultRecordOk, hhalted, hcause, hfcmd]

/-- Fault entry gives a whole fault record (R252). -/
theorem raiseFault_inv (c : Cause) (w : Word) {s : State} (hs : s.Inv) : (raiseFault c w s).Inv := by
  obtain ⟨hfb, hzero, -⟩ := (inv_iff s).mp hs
  refine (inv_iff _).mpr ⟨hfb, ?_, ?_⟩
  · have hkept : (raiseFault c w s).status.extractLsb' 6 26 = s.status.extractLsb' 6 26 :=
      setStatusBit_reserved .fault true s
    rwa [statusReservedZero, hkept]
  · rw [faultRecordOk, if_pos (halted_raiseFault c w s)]
    cases c <;> rfl

/-- No completed command writes STATUS.FAULT or a reserved bit. -/
theorem getLsbD_statusWrites (i : Instr) {k : Nat} (hk : k = 0 ∨ 6 ≤ k) : (statusWrites i).getLsbD k = false := by
  have hmask : statusWrites i &&& 0x3E#32 = statusWrites i := by cases i <;> simp [statusWrites]
  have hbit : (0x3E#32).getLsbD k = false := by
    obtain rfl | hk := hk
    · rfl
    · exact Nat.testBit_lt_two_pow (Nat.lt_of_lt_of_le (by decide) (Nat.pow_le_pow_right two_pos hk))
  rw [← hmask, BitVec.getLsbD_and, hbit, Bool.and_false]

theorem WritesOnlyItsOwn.halted_eq {i : Instr} {s t : State} (h : WritesOnlyItsOwn i s t) : halted t = halted s :=
  getLsbD_eq_of_and_not_eq h.status (by decide) (getLsbD_statusWrites i (.inl rfl))

theorem WritesOnlyItsOwn.reserved_eq {i : Instr} {s t : State} (h : WritesOnlyItsOwn i s t) :
    t.status.extractLsb' 6 26 = s.status.extractLsb' 6 26 := by
  refine BitVec.eq_of_getLsbD_eq fun k hk => ?_
  rw [BitVec.getLsbD_extractLsb', BitVec.getLsbD_extractLsb',
    getLsbD_eq_of_and_not_eq h.status (by omega) (getLsbD_statusWrites i (.inr (by omega)))]

theorem exec_inv {i : Instr} {s t : State} (hi : i.WellFormed) (h : exec i s = .next t) (hs : s.Inv) : t.Inv := by
  obtain ⟨-, -, hwrites⟩ | ⟨-, rfl⟩ := exec_outcome h
  · exact inv_of_kept hs (exec_keeps_wf hi h (fb_wf_of_inv hs)) hwrites.reserved_eq
      hwrites.halted_eq hwrites.cause hwrites.fcmd
  · exact raiseFault_inv _ _ hs

theorem exec_params {i : Instr} {s t : State} (h : exec i s = .next t) : t.params = s.params := by
  obtain ⟨-, -, hwrites⟩ | ⟨-, rfl⟩ := exec_outcome h
  · exact hwrites.params
  · rfl

/-- A host write to STATUS keeps FAULT and the reserved bits (R27). -/
theorem clearStatusW1c_inv (data : Word) {s : State} (hs : s.Inv) : (clearStatusW1c data s).Inv := by
  have hkept (k : Nat) (hk : k < 32) (hflags : ¬ (k = 4 ∨ k = 5)) :
      (clearStatusW1c data s).status.getLsbD k = s.status.getLsbD k := by
    simp only [getLsbD_clearStatusW1c data s hk, decide_eq_false hflags, Bool.false_and, Bool.not_false, Bool.and_true]
  have hfb : Memory.wf (clearStatusW1c data s).fb = true := by
    rw [clearStatusW1c_fb]
    exact fb_wf_of_inv hs
  refine inv_of_kept hs hfb ?_ (hkept 0 (by decide) (by decide)) rfl rfl
  refine BitVec.eq_of_getLsbD_eq fun k hk => ?_
  rw [BitVec.getLsbD_extractLsb', BitVec.getLsbD_extractLsb', hkept (6 + k) (by omega) (by omega)]

theorem halted_takeReset (s : State) : halted (takeReset s) = false := by
  rw [halted, statusBit, takeReset_status]
  rfl

theorem reset_inv : State.reset.Inv := (inv_iff _).mpr ⟨reset_wf, rfl, rfl⟩

/-! ### Everything a host operation and a step can do -/

/-- What an accepted host write of `w` can do to the block (R26, R31, R56). -/
inductive WriteEffect (w : Word) (s : State) : State → Prop where
  /-- A read-only register, or CMD of a halted block (R254). -/
  | ignored : WriteEffect w s s
  | setsD : WriteEffect w s { s with d := w.setWidth 16 }
  | setsCrc : WriteEffect w s { s with crc := w.setWidth 16 }
  | clearsFlags : WriteEffect w s (clearStatusW1c w s)
  | storesByte (a : Nat) (ha : a < Config.fbSize) : WriteEffect w s (writeByte a (w.setWidth 8) s)
  | illegal (e : Illegal) (hrun : halted s = false) (hdecode : decode w = .error e) :
      WriteEffect w s (raiseFault .illegal w s)
  | command (i : Instr) (t : State) (hrun : halted s = false) (hdecode : decode w = .ok i)
      (hexec : exec i s = .next t) : WriteEffect w s t

theorem commandPort_effect {w : Word} {s t : State} (h : commandPort w s = .next t) : WriteEffect w s t := by
  cases hrun : halted s with
  | true =>
    rw [commandPort_halted hrun] at h
    obtain rfl := Host.Outcome.next.inj h
    exact .ignored
  | false =>
    cases hdecode : decode w with
    | error e =>
      rw [commandPort_illegal hrun hdecode] at h
      obtain rfl := Host.Outcome.next.inj h
      exact .illegal e hrun hdecode
    | ok i =>
      rw [commandPort_runs hrun hdecode] at h
      exact .command i t hrun hdecode h

theorem regWrite_effect {r : HostReg} {w : Word} {s t : State} (h : regWrite r w s = .next t) :
    WriteEffect w s t := by
  cases r with
  | cmd => exact commandPort_effect h
  | d => exact Host.Outcome.next.inj h ▸ .setsD
  | crc => exact Host.Outcome.next.inj h ▸ .setsCrc
  | status => exact Host.Outcome.next.inj h ▸ .clearsFlags
  | res | cause | id | fcmd => exact Host.Outcome.next.inj h ▸ .ignored

theorem fbAt_lt {off a : Nat} (h : fbAt off = some a) : a < Config.fbSize := by
  unfold fbAt at h
  split at h
  · obtain rfl := Option.some.inj h
    simp only [Config.fbSize]
    omega
  · cases h

/-- The window reaches FB's 256 bytes alone (R56). -/
theorem busTarget_fb_lt {bits off a : Nat} (h : busTarget bits off = some (.fb a)) : a < Config.fbSize := by
  unfold busTarget at h
  split at h
  · simp at h
  · split at h
    · simp only [Option.map_eq_some_iff, BusTarget.fb.injEq, exists_eq_right] at h
      exact fbAt_lt h
    · cases h

/-- Everything a host write can do: SLVERR, or its effect with the bus answering okay. -/
theorem busWrite_effect {bits off : Nat} {w : Word} {s t : State} (h : busWrite bits off w s = .next t) :
    t = { s with response := .slverr } ∨ WriteEffect w { s with response := .okay } t := by
  unfold busWrite at h
  split at h
  · exact .inl (Host.Outcome.next.inj h).symm
  · exact .inr (regWrite_effect h)
  · next a htarget =>
    obtain rfl := Host.Outcome.next.inj h
    exact .inr (.storesByte a (busTarget_fb_lt htarget))

/-- Everything a step can do. -/
theorem step_effect {s t : State} (h : step s = .next t) :
    (s.pending = [] ∧ t = s) ∨
      ∃ op rest, s.pending = op :: rest ∧
        ((∃ r, t = { s with pending := rest, response := r }) ∨ t = takeReset { s with pending := rest } ∨
          ∃ w, WriteEffect w { s with pending := rest, response := .okay } t) := by
  obtain ⟨hpending, hstep⟩ | ⟨op, rest, hpending, hstep⟩ := step_cases s
  · exact .inl ⟨hpending, Host.Outcome.next.inj (h.symm.trans hstep)⟩
  · rw [hstep] at h
    refine .inr ⟨op, rest, hpending, ?_⟩
    cases op with
    | read bits off => exact .inl ⟨_, (Host.Outcome.next.inj h).symm⟩
    | reset => exact .inr (.inl (Host.Outcome.next.inj h).symm)
    | write bits off w =>
      obtain rfl | heffect := busWrite_effect h
      · exact .inl ⟨_, rfl⟩
      · exact .inr (.inr ⟨w, heffect⟩)

theorem WriteEffect.params_eq {w : Word} {s t : State} (h : WriteEffect w s t) : t.params = s.params := by
  cases h with
  | command i t hrun hdecode hexec => exact exec_params hexec
  | _ => rfl

theorem WriteEffect.keeps_inv {w : Word} {s t : State} (h : WriteEffect w s t) (hs : s.Inv) : t.Inv := by
  cases h with
  | ignored | setsD | setsCrc => exact hs
  | clearsFlags => exact clearStatusW1c_inv w hs
  | storesByte a ha =>
    exact inv_of_kept hs (writeByte_keeps_wf _ _ _ (fb_wf_of_inv hs) ha) rfl rfl rfl rfl
  | illegal e hrun hdecode => exact raiseFault_inv .illegal w hs
  | command i t hrun hdecode hexec => exact exec_inv (decode_wellFormed hdecode) hexec hs

/-! ### The statements -/

/-- Settles O59: fault entry, host writes and each command keep the invariant, and a step is one of these. -/
theorem stepKeepsTheInvariant : Obligations.StepKeepsTheInvariant := by
  intro s t hs h
  obtain ⟨-, rfl⟩ | ⟨op, rest, -, ⟨r, rfl⟩ | rfl | ⟨w, heffect⟩⟩ := step_effect h
  · exact hs
  · exact hs
  · exact reset_inv
  · exact heffect.keeps_inv hs

/-- Settles O58. -/
theorem stepNeverChangesTheBuild : Obligations.StepNeverChangesTheBuild := by
  intro s t h
  have hparams : t.params = s.params := by
    obtain ⟨-, rfl⟩ | ⟨op, rest, -, ⟨r, rfl⟩ | rfl | ⟨w, heffect⟩⟩ := step_effect h
    · rfl
    · rfl
    · rfl
    · exact heffect.params_eq
  exact ⟨hparams, congrArg schemaRom hparams⟩

/-- Settles O57: a completed command writes only its own, and a fault only STATUS.FAULT, CAUSE and FCMD. -/
theorem everyCommandWritesOnlyItsRegisters : Obligations.EveryCommandWritesOnlyItsRegisters := by
  intro i s t h
  obtain ⟨hbad, hrange, hwrites⟩ | ⟨hcheck, rfl⟩ := exec_outcome h
  · obtain ⟨hres, hd, hcrc, hfb, hstatus, hcause, hfcmd, hparams, hresets, hpending, hresponse⟩ := hwrites
    refine ⟨?_, ?_, ?_, ?_, fun _ _ => ⟨hstatus, hcause, hfcmd⟩, by simp [hbad, hrange],
      hparams, hresets, hpending, hresponse⟩
    · cases i <;> simp at hres ⊢ <;> exact hres
    · cases i <;> simp at hd ⊢ <;> exact hd
    · cases i <;> simp at hcrc ⊢ <;> exact hcrc
    · cases i <;> simp at hfb ⊢ <;> exact hfb
  · refine ⟨?_, ?_, ?_, ?_, fun hbad hrange => ?_, fun _ => rfl, rfl, rfl, rfl, rfl⟩
    · cases i <;> trivial
    · cases i <;> trivial
    · cases i <;> trivial
    · cases i <;> trivial
    · simp [hbad, hrange] at hcheck

/-- Settles O53. -/
theorem statusWriteOneClearsEerrAndOvfOnly : Obligations.StatusWriteOneClearsEerrAndOvfOnly := by
  intro s w rest hpending
  exact ⟨clearStatusW1c w { s with pending := rest, response := .okay }, step_of_pending hpending, rfl,
    fun k hk => getLsbD_clearStatusW1c w _ hk⟩

/-- Settles O6. -/
theorem stepRunsTheDecodedCommand : Obligations.StepRunsTheDecodedCommand := by
  intro s w rest i hpending hrun hdecode
  rw [step_of_pending hpending]
  exact commandPort_runs (s := { s with pending := rest, response := .okay }) hrun hdecode

/-- Settles O7. -/
theorem waitingBlockKeepsItsState : Obligations.WaitingBlockKeepsItsState := by
  intro s hpending
  rw [step, takeNext, hpending]

/-- Settles O52, one case per register of the map. -/
theorem registerAccessesFollowTheMap : Obligations.RegisterAccessesFollowTheMap := by
  intro s off v w rest
  have hlow : w.setWidth 16 = w.extractLsb' 0 16 := BitVec.setWidth_eq_extractLsb' (by decide)
  refine ⟨fun hpending hmap => ?_, fun hpending => ⟨?_, ?_, ?_⟩⟩
  · rw [step_of_pending hpending]
    simp only [List.mem_cons, Prod.mk.injEq, List.not_mem_nil, or_false] at hmap
    rcases hmap with ⟨rfl, rfl⟩ | ⟨rfl, rfl⟩ | ⟨rfl, rfl⟩ | ⟨rfl, rfl⟩ | ⟨rfl, rfl⟩ | ⟨rfl, rfl⟩ | ⟨rfl, rfl⟩ |
      ⟨rfl, rfl⟩ <;> rfl
  · rintro rfl
    rw [step_of_pending hpending, ← hlow]
    rfl
  · rintro rfl
    rw [step_of_pending hpending, ← hlow]
    rfl
  · rw [step_of_pending hpending]
    rintro (rfl | rfl | rfl | rfl) <;> rfl

/-- Settles O56. -/
theorem resetPutsEveryRegisterBack : Obligations.ResetPutsEveryRegisterBack := by
  refine ⟨fun s rest hpending => ⟨takeReset { s with pending := rest }, step_of_pending hpending, ?_⟩, ?_⟩
  · exact ⟨rfl, rfl, rfl, rfl, rfl, rfl, halted_takeReset _, rfl, rfl, fun _ => rfl⟩
  · exact ⟨rfl, rfl, rfl, rfl, rfl, rfl, rfl⟩

/-- Settles O60. -/
theorem resetStateHasTheInvariant : Obligations.ResetStateHasTheInvariant := reset_inv

end Sys2Proof.Machine

/-! SUPPORT. Proofs of the statements of 20_memory.md: 16-bit fields read as bytes, and the host's accesses. -/

namespace Sys2Proof.Machine

/-! ### Reading a 16-bit field as two bytes (R58) -/

theorem leRead_sixteen (s : State) (a : Nat) : leRead s a 16 = readByte s (a + 1) ++ readByte s a := by
  refine BitVec.eq_of_getLsbD_eq fun k hk => ?_
  rw [getLsbD_leRead s a 16 k hk, BitVec.getLsbD_append, leBit]
  by_cases hlow : k < 8
  · rw [if_pos hlow, Nat.div_eq_of_lt hlow, Nat.mod_eq_of_lt hlow, Nat.add_zero]
  · rw [if_neg hlow, show k / 8 = 1 by omega, show k % 8 = k - 8 by omega]

/-- A field that starts at a byte's first stream bit has that byte as its high half. -/
theorem bfRead_sixteen (s : State) (a : Nat) : bfRead s (8 * a) 16 = readByte s a ++ readByte s (a + 1) := by
  refine BitVec.eq_of_getLsbD_eq fun k hk => ?_
  rw [getLsbD_bfRead s (8 * a) 16 k hk, BitVec.getLsbD_append]
  by_cases hlow : k < 8
  · rw [if_pos hlow, readByte_getLsbD s (a + 1) k hlow, show 8 * a + (16 - 1 - k) = 8 * (a + 1) + (7 - k) by omega]
  · rw [if_neg hlow, readByte_getLsbD s a (k - 8) (by omega),
      show 8 * a + (16 - 1 - k) = 8 * a + (7 - (k - 8)) by omega]

/-- LE.RD inside FB (R164). -/
theorem exec_leRd_inRange {a : BitVec 8} {width : Nat} (s : State) (h : a.toNat + nbytes width ≤ 256) :
    exec (.leRd a width) s = .next { s with res := (leRead s a.toNat width).setWidth 16 } := by
  rw [exec, execLeRd, (bytesInRange_iff _ _).mpr h, ifInRange_true]

/-- BF.RD inside FB (R162). -/
theorem exec_bfRd_inRange {bit : BitVec 11} {width : Nat} (s : State) (h : bit.toNat + width ≤ 2048) :
    exec (.bfRd bit width) s = .next { s with res := (bfRead s bit.toNat width).setWidth 16 } := by
  rw [exec, execBfRd, (bitsInRange_iff _ _).mpr h, ifInRange_true]

/-- Settles O28: both commands are in range, and their 16 bits are the two bytes in either order. -/
theorem mixedWidthViews : Obligations.MixedWidthViews := by
  intro s a bit ha hbit
  have hle : a.toNat + nbytes 16 ≤ 256 := by rw [show nbytes 16 = 2 from rfl]; omega
  have hbf : bit.toNat + 16 ≤ 2048 := by omega
  constructor
  · rw [exec_leRd_inRange s hle, BitVec.setWidth_eq, leRead_sixteen]
  · rw [exec_bfRd_inRange s hbf, BitVec.setWidth_eq, hbit, bfRead_sixteen]

/-! ### What an access reaches (R26, R56) -/

/-- The register map has a register at every multiple of 4 below 0x020, and nowhere else. -/
theorem regAt_isSome_iff (off : Nat) : (regAt off).isSome = true ↔ off < 0x20 ∧ off % 4 = 0 := by
  by_cases h : off < 0x20
  · revert off
    decide
  · unfold regAt
    split
    case h_9 => simp [h]
    all_goals omega

theorem busTarget_register {bits off : Nat} (h : bits = 32 ∧ off < 0x20 ∧ off % 4 = 0) :
    ∃ r, busTarget bits off = some (.reg r) := by
  obtain ⟨rfl, hmap⟩ := h
  obtain ⟨r, hr⟩ := Option.isSome_iff_exists.mp ((regAt_isSome_iff off).mpr hmap)
  exact ⟨r, by rw [busTarget, if_pos rfl, hr, Option.map_some]⟩

theorem busTarget_window {bits off : Nat} (h : bits = 8 ∧ 0x100 ≤ off ∧ off < 0x200) :
    busTarget bits off = some (.fb (off - 0x100)) := by
  obtain ⟨rfl, hwindow⟩ := h
  rw [busTarget, if_neg (by decide), if_pos rfl, fbAt, if_pos hwindow, Option.map_some]

theorem busTarget_refused {bits off : Nat} (hreg : ¬ (bits = 32 ∧ off < 0x20 ∧ off % 4 = 0))
    (hfb : ¬ (bits = 8 ∧ 0x100 ≤ off ∧ off < 0x200)) : busTarget bits off = none := by
  unfold busTarget
  split
  · next h32 =>
    have hnone : ¬ (regAt off).isSome = true := fun h => hreg ⟨h32, (regAt_isSome_iff off).mp h⟩
    rw [Option.not_isSome_iff_eq_none.mp hnone, Option.map_none]
  · split
    · next h8 => rw [fbAt, if_neg fun h => hfb ⟨h8, h⟩, Option.map_none]
    · rfl

/-! ### Host reads (R56, R62) -/

/-- No read depends on the host's queue or on the last answer. -/
theorem busRead_queue_response (bits off : Nat) (s : State) (queue : List HostOp) (r : Response) :
    busRead bits off { s with pending := queue, response := r } = busRead bits off s := by
  unfold busRead
  split
  · rfl
  · next reg _ => cases reg <;> rfl
  · exact congrArg Response.byte (readByte_congr rfl rfl _)

/-- Everything a host read does. -/
theorem step_read {s : State} {bits off : Nat} {rest : List HostOp} (h : s.pending = .read bits off :: rest) :
    step s = .next { s with pending := rest, response := busRead bits off s } := by
  rw [step_of_pending h, hostOp, busRead_queue_response bits off s rest s.response]

theorem busRead_register {bits off : Nat} {r : HostReg} (s : State) (h : busTarget bits off = some (.reg r)) :
    busRead bits off s = .word (regRead r s) := by
  simp only [busRead, h]

theorem busRead_window {bits off a : Nat} (s : State) (h : busTarget bits off = some (.fb a)) :
    busRead bits off s = .byte (readByte s a) := by
  simp only [busRead, h]

theorem busRead_refused {bits off : Nat} (s : State) (h : busTarget bits off = none) :
    busRead bits off s = .slverr := by
  simp only [busRead, h]

/-- Settles O55: the answer depends on nothing that the read itself changes. -/
theorem readsHaveNoSideEffect : Obligations.ReadsHaveNoSideEffect := by
  intro s bits off rest again hpending
  refine ⟨busRead bits off s, step_read hpending, ?_⟩
  rw [step_read rfl, busRead_queue_response bits off s (.read bits off :: again)]

/-! ### Host writes (R56) -/

theorem ifInRange_total (ok : Bool) (i : Instr) (s t : State) : ∃ u, ifInRange ok i s t = .next u := by
  cases ok with
  | false => exact ⟨_, ifInRange_false i s t⟩
  | true => exact ⟨_, ifInRange_true i s t⟩

/-- Every command has a next state: its faults are entries into the halted state (R252). -/
theorem exec_total (i : Instr) (s : State) : ∃ t, exec i s = .next t := by
  cases i with
  | crcBlk | crcSeg | crcStore | crcCheck | bfRd | bfWr | leRd | leWr => exact ifInRange_total ..
  | fldRd id =>
    obtain ⟨-, hnone⟩ | ⟨-, e, hsome⟩ := schemaEntry_cases s.params id
    · exact ⟨_, exec_fldRd_unassigned hnone⟩
    · exact ⟨_, exec_fldRd_assigned hsome⟩
  | fldWr id =>
    obtain ⟨-, hnone⟩ | ⟨-, e, hsome⟩ := schemaEntry_cases s.params id
    · exact ⟨_, exec_fldWr_unassigned hnone⟩
    · exact ⟨_, exec_fldWr_assigned hsome⟩
  | nop | crcInit | sclr | movrd | movcr | crcByte | crcMem | ldi | frStamp | frCheck => exact ⟨_, rfl⟩

theorem commandPort_total (w : Word) (s : State) : ∃ t, commandPort w s = .next t := by
  cases hrun : halted s with
  | true => exact ⟨_, commandPort_halted hrun⟩
  | false =>
    cases hdecode : decode w with
    | error e => exact ⟨_, commandPort_illegal hrun hdecode⟩
    | ok i =>
      rw [commandPort_runs hrun hdecode]
      exact exec_total i s

theorem regWrite_total (r : HostReg) (w : Word) (s : State) : ∃ t, regWrite r w s = .next t := by
  cases r with
  | cmd => exact commandPort_total w s
  | d | res | crc | status | cause | id | fcmd => exact ⟨_, rfl⟩

/-- No command touches the host's queue or the bus's last answer. -/
theorem exec_keeps_queue_response {i : Instr} {s t : State} (h : exec i s = .next t) :
    t.pending = s.pending ∧ t.response = s.response := by
  obtain ⟨-, -, hwrites⟩ | ⟨-, rfl⟩ := exec_outcome h
  · exact ⟨hwrites.pending, hwrites.response⟩
  · exact ⟨rfl, rfl⟩

theorem WriteEffect.keeps_queue_response {w : Word} {s t : State} (h : WriteEffect w s t) :
    t.pending = s.pending ∧ t.response = s.response := by
  cases h with
  | command i t hrun hdecode hexec => exact exec_keeps_queue_response hexec
  | ignored | setsD | setsCrc | clearsFlags | storesByte | illegal => exact ⟨rfl, rfl⟩

/-- A register write is accepted, whatever the register and whatever a command word does. -/
theorem step_write_register {s : State} {bits off : Nat} {w : Word} {rest : List HostOp} {r : HostReg}
    (hpending : s.pending = .write bits off w :: rest) (htarget : busTarget bits off = some (.reg r)) :
    ∃ t, step s = .next t ∧ t.response = .okay ∧ t.pending = rest := by
  obtain ⟨t, ht⟩ := regWrite_total r w { s with pending := rest, response := .okay }
  obtain ⟨hqueue, hresponse⟩ := (regWrite_effect ht).keeps_queue_response
  refine ⟨t, ?_, hresponse, hqueue⟩
  simp only [step_of_pending hpending, hostOp, busWrite, htarget, ht]

theorem step_write_window {s : State} {bits off a : Nat} {w : Word} {rest : List HostOp}
    (hpending : s.pending = .write bits off w :: rest) (htarget : busTarget bits off = some (.fb a)) :
    step s = .next (writeByte a (w.extractLsb' 0 8) { s with pending := rest, response := .okay }) := by
  have hlow : w.setWidth 8 = w.extractLsb' 0 8 := BitVec.setWidth_eq_extractLsb' (by decide)
  simp only [step_of_pending hpending, hostOp, busWrite, htarget, hlow]

theorem step_write_refused {s : State} {bits off : Nat} {w : Word} {rest : List HostOp}
    (hpending : s.pending = .write bits off w :: rest) (htarget : busTarget bits off = none) :
    step s = .next { s with pending := rest, response := .slverr } := by
  simp only [step_of_pending hpending, hostOp, busWrite, htarget]

/-- Settles O54: a read and a write, each by what the access reaches. -/
theorem hostAccessRules : Obligations.HostAccessRules := by
  intro s bits off w rest
  refine ⟨fun hread => ⟨fun hreg => ?_, fun hfb => ?_, fun hreg hfb => ?_⟩,
    fun hwrite => ⟨fun hreg => ?_, fun hfb => ?_, fun hreg hfb => ?_⟩⟩
  · obtain ⟨r, htarget⟩ := busTarget_register hreg
    exact ⟨regRead r s, by rw [step_read hread, busRead_register s htarget]⟩
  · rw [step_read hread, busRead_window s (busTarget_window hfb)]
  · rw [step_read hread, busRead_refused s (busTarget_refused hreg hfb)]
  · obtain ⟨r, htarget⟩ := busTarget_register hreg
    exact step_write_register hwrite htarget
  · refine ⟨_, step_write_window hwrite (busTarget_window hfb), rfl, fun b => ?_⟩
    exact (readByte_writeByte _ _ _ b).trans (congrArg (ite _ _) (readByte_congr rfl rfl b))
  · exact step_write_refused hwrite (busTarget_refused hreg hfb)

end Sys2Proof.Machine

/-! SUPPORT. Proofs of the statements of 30_encoding.md: a word is an opcode, reserved bits and an operand field, and the
decoder, the encoder, R85's reserved bits and the assembler's table are the same 16 formats. -/

namespace Sys2Proof.Machine

/-! ### The layout of a word (R81) -/

/-- The word with operand field `x` under an opcode, the `k` reserved bits between them zero. -/
def formatWord (op : BitVec 4) {n k : Nat} (hn : 4 + k + n = 32) (x : BitVec n) : Word := (op ++ 0#k ++ x).cast hn

theorem toNat_formatWord (op : BitVec 4) {n k : Nat} (hn : 4 + k + n = 32) (x : BitVec n) :
    (formatWord op hn x).toNat = op.toNat * 2 ^ 28 + x.toNat := by
  have hx : x.toNat < 2 ^ (k + n) := x.isLt.trans_le (Nat.pow_le_pow_right two_pos (Nat.le_add_left n k))
  have hkn : k + n = 28 := by omega
  simp only [formatWord, BitVec.toNat_cast, BitVec.toNat_append, BitVec.toNat_zero, Nat.or_zero]
  rw [← Nat.shiftLeft_add, ← Nat.shiftLeft_add_eq_or_of_lt hx, Nat.shiftLeft_eq, hkn]

/-- A word is its opcode, its reserved bits and its operand field. -/
theorem formatWord_eq_iff {op : BitVec 4} {n k : Nat} (hn : 4 + k + n = 32) {x : BitVec n} {w : Word} :
    formatWord op hn x = w ↔ w.extractLsb' 28 4 = op ∧ w.extractLsb' n k = 0 ∧ w.extractLsb' 0 n = x := by
  obtain rfl : k = 28 - n := by omega
  constructor
  · rintro rfl
    refine ⟨?_, ?_, ?_⟩ <;> refine BitVec.eq_of_getLsbD_eq fun j hj => ?_
    · have hop : 28 + j - n - (28 - n) = j := by omega
      have hreserved : ¬ 28 + j - n < 28 - n := by omega
      have hfield : ¬ 28 + j < n := by omega
      simp [formatWord, BitVec.getLsbD_append, hj, hop, hreserved, hfield]
    · simp [formatWord, BitVec.getLsbD_append, hj]
    · simp [formatWord, BitVec.getLsbD_append, hj]
  · rintro ⟨rfl, hzero, rfl⟩
    have hjoin : w.extractLsb' 28 4 ++ w.extractLsb' n (28 - n) ++ w.extractLsb' 0 n =
        w.extractLsb' 0 (4 + (28 - n) + n) := by
      rw [BitVec.extractLsb'_append_extractLsb'_eq_extractLsb' (by omega),
        BitVec.extractLsb'_append_extractLsb'_eq_extractLsb' (by omega)]
    rw [formatWord, show 0#(28 - n) = w.extractLsb' n (28 - n) from hzero.symm, hjoin]
    refine BitVec.eq_of_getLsbD_eq fun j hj => ?_
    simp [hj]

/-- Ones in the `k` reserved bits of a format. -/
def formatMask {n k : Nat} (hn : 4 + k + n = 32) : Word := (0#4 ++ BitVec.allOnes k ++ 0#n).cast hn

theorem getLsbD_formatMask {n k : Nat} (hn : 4 + k + n = 32) (j : Nat) :
    (formatMask hn).getLsbD j = decide (n ≤ j ∧ j < 28) := by
  by_cases hlow : j < n
  · simp [formatMask, BitVec.getLsbD_append, hlow, Nat.not_le.mpr hlow]
  · have hreserved : j - n < k ↔ j < 28 := by omega
    simp [formatMask, BitVec.getLsbD_append, hlow, Nat.not_lt.mp hlow, hreserved]

/-- No reserved bit of the format is set exactly when the word is zero under their mask. -/
theorem and_formatMask_eq_zero_iff {n k : Nat} (hn : 4 + k + n = 32) (w : Word) :
    w &&& formatMask hn = 0 ↔ w.extractLsb' n k = 0 := by
  refine ⟨fun h => BitVec.eq_of_getLsbD_eq fun j hj => ?_, fun h => BitVec.eq_of_getLsbD_eq fun j hj => ?_⟩
  · have hbit := congrArg (·.getLsbD (n + j)) h
    simpa [getLsbD_formatMask, hj, show n + j < 28 by omega] using hbit
  · have hbit := congrArg (·.getLsbD (j - n)) h
    rw [BitVec.getLsbD_and, getLsbD_formatMask]
    by_cases hreserved : n ≤ j ∧ j < 28
    · simpa [hreserved, show j - n < k by omega] using hbit
    · simp [hreserved]

/-! ### What a format is (R81, R83) -/

/-- The decoder's arm of an opcode, whatever the word's own opcode is. -/
def decodeUnder (op : BitVec 4) (w : Word) : Except Illegal Instr :=
  decodeOpcode (op.getLsbD 3) (op.getLsbD 2) (op.getLsbD 1) (op.getLsbD 0) w

theorem decode_eq_decodeUnder (w : Word) : decode w = decodeUnder (w.extractLsb' 28 4) w := by
  simp [decode, decodeUnder]

/-- The format of an opcode: `n` operand bits read by `operands` and written by the encoder, below `k` reserved bits. -/
structure Format (op : BitVec 4) (n k : Nat) (hn : 4 + k + n = 32) (operands : BitVec n → Except Illegal Instr) :
    Prop where
  decodes : ∀ w, decodeUnder op w =
    if w.extractLsb' n k = 0 then operands (w.extractLsb' 0 n) else .error .reservedBit
  encodes : ∀ {x i}, operands x = .ok i → encode i = formatWord op hn x
  reserved : reservedMask op = formatMask hn

namespace Format

variable {op : BitVec 4} {n k : Nat} {hn : 4 + k + n = 32} {operands : BitVec n → Except Illegal Instr}

/-- The decoder on a word of the format's opcode. -/
theorem decode_eq (F : Format op n k hn operands) {w : Word} (hop : w.extractLsb' 28 4 = op) :
    decode w = if w.extractLsb' n k = 0 then operands (w.extractLsb' 0 n) else .error .reservedBit := by
  rw [decode_eq_decodeUnder, hop, F.decodes w]

theorem decode_encode (F : Format op n k hn operands) {x : BitVec n} {i : Instr} (h : operands x = .ok i) :
    decode (encode i) = .ok i := by
  obtain ⟨hop, hzero, hx⟩ := (formatWord_eq_iff hn).mp (F.encodes h).symm
  rw [F.decode_eq hop, if_pos hzero, hx, h]

theorem encode_of_decode (F : Format op n k hn operands) {w : Word} {i : Instr} (hop : w.extractLsb' 28 4 = op)
    (h : decode w = .ok i) : encode i = w := by
  rw [F.decode_eq hop] at h
  split at h
  · next hzero => rw [F.encodes h, formatWord_eq_iff]; exact ⟨hop, hzero, rfl⟩
  · cases h

/-- R85: the decoder rejects a word for its reserved bits or for its operand field. -/
theorem decode_error_iff (F : Format op n k hn operands) {w : Word} (hop : w.extractLsb' 28 4 = op) :
    (∃ e, decode w = .error e) ↔ w &&& reservedMask op ≠ 0 ∨ ∃ e, operands (w.extractLsb' 0 n) = .error e := by
  rw [F.decode_eq hop, F.reserved, Ne, and_formatMask_eq_zero_iff hn]
  split
  · next hzero => simp [hzero]
  · next hset => exact ⟨fun _ => .inl hset, fun _ => ⟨_, rfl⟩⟩

/-- A format whose operand field is one operand, every value of which is a command. -/
theorem of_operand {make : BitVec n → Instr}
    (hdecode : ∀ w, decodeUnder op w = whenZero w n k (make (w.extractLsb' 0 n)))
    (hencode : ∀ x, encode (make x) = formatWord op hn x)
    (hreserved : reservedMask op = formatMask hn) :
    Format op n k hn fun x => .ok (make x) where
  decodes := hdecode
  encodes h := Except.ok.inj h ▸ hencode _
  reserved := hreserved

end Format

/-- An operand field of two operands, the first in its low `n` bits. -/
def twoOperands {n m : Nat} (make : BitVec n → BitVec m → Instr) (x : BitVec (m + n)) : Instr :=
  make (x.extractLsb' 0 n) (x.extractLsb' n m)

@[simp] theorem twoOperands_append {n m : Nat} (make : BitVec n → BitVec m → Instr) (high : BitVec m) (low : BitVec n) :
    twoOperands make (high ++ low) = make low high := by
  rw [twoOperands, BitVec.extractLsb'_append_eq_right, BitVec.extractLsb'_append_eq_left]

theorem append_extractLsb'_eq {n m : Nat} (x : BitVec (m + n)) : x.extractLsb' n m ++ x.extractLsb' 0 n = x := by
  rw [BitVec.extractLsb'_append_extractLsb'_eq_extractLsb' (Nat.zero_add n).symm, BitVec.extractLsb'_eq_self]

/-- A format whose operand field is two operands side by side. -/
theorem Format.of_twoOperands {op : BitVec 4} {n m k : Nat} {hn : 4 + k + (m + n) = 32}
    {make : BitVec n → BitVec m → Instr}
    (hdecode : ∀ w, decodeUnder op w = whenZero w (m + n) k (make (w.extractLsb' 0 n) (w.extractLsb' n m)))
    (hencode : ∀ low high, encode (make low high) = (op ++ 0#k ++ high ++ low).cast (by omega))
    (hreserved : reservedMask op = formatMask hn) :
    Format op (m + n) k hn fun x => .ok (twoOperands make x) := by
  refine .of_operand (fun w => ?_) (fun x => ?_) hreserved
  · rw [hdecode, twoOperands, BitVec.extractLsb'_extractLsb'_of_le (by omega),
      BitVec.extractLsb'_extractLsb'_of_le (by omega)]
  · rw [twoOperands, hencode, formatWord, BitVec.append_assoc, BitVec.cast_cast, append_extractLsb'_eq]

/-! ### The formats, opcode by opcode (R82 to R84) -/

/-- A width is its code plus one (R82). -/
theorem toNat_widthCode {width : Nat} (h : widthOk width = true) : (widthCode width).toNat + 1 = width := by
  obtain ⟨hlow, hhigh⟩ := of_decide_eq_true h
  rw [widthCode, BitVec.toNat_ofNat, Nat.mod_eq_of_lt (by omega), Nat.sub_add_cancel hlow]

@[simp] theorem widthCode_toNat_add_one (code : BitVec 4) : widthCode (code.toNat + 1) = code := by simp [widthCode]

/-- The width operand of a format with a width code (R82). -/
def withWidthCode {n : Nat} (make : BitVec n → Nat → Instr) (x : BitVec n) (code : BitVec 4) : Instr :=
  make x (code.toNat + 1)

theorem withWidthCode_widthCode {n width : Nat} (make : BitVec n → Nat → Instr) (x : BitVec n)
    (h : widthOk width = true) : withWidthCode make x (widthCode width) = make x width := by
  rw [withWidthCode, toNat_widthCode h]

theorem frameBit_frameOfBit (x : BitVec 1) : frameBit (frameOfBit (x.getLsbD 0)) = x := by
  revert x
  decide

theorem frameOfBit_frameBit (f : Frame) : frameOfBit ((frameBit f).getLsbD 0) = f := by cases f <;> rfl

theorem encode_of_sysFunc {func : BitVec 4} {i : Instr} (h : sysFunc func = .ok i) :
    encode i = formatWord 0x0#4 (k := 24) rfl func := by
  unfold sysFunc at h
  split at h <;> cases h <;> rfl

/-- R85 (b): the SYS functions 0x5 to 0xF are no commands. -/
theorem sysFunc_error_iff (func : BitVec 4) : (∃ e, sysFunc func = .error e) ↔ 5 ≤ func.toNat := by
  unfold sysFunc
  split
  case h_6 =>
    refine ⟨fun _ => ?_, fun _ => ⟨_, rfl⟩⟩
    simp only [imp_false] at *
    bv_omega
  all_goals simp

theorem sys_format : Format 0x0#4 4 24 rfl sysFunc := ⟨fun _ => rfl, encode_of_sysFunc, rfl⟩

theorem crcByte_format : Format 0x1#4 8 20 rfl fun x => .ok (.crcByte x) :=
  .of_operand (fun _ => rfl) (fun _ => rfl) rfl

theorem crcMem_format : Format 0x2#4 8 20 rfl fun x => .ok (.crcMem x) :=
  .of_operand (fun _ => rfl) (fun _ => rfl) rfl

theorem crcBlk_format : Format 0x3#4 (9 + 8) 11 rfl fun x => .ok (twoOperands .crcBlk x) :=
  .of_twoOperands (fun _ => rfl) (fun _ _ => rfl) rfl

theorem crcSeg_format : Format 0x4#4 (9 + 8) 11 rfl fun x => .ok (twoOperands .crcSeg x) :=
  .of_twoOperands (fun _ => rfl) (fun _ _ => rfl) rfl

theorem crcStore_format : Format 0x5#4 8 20 rfl fun x => .ok (.crcStore x) :=
  .of_operand (fun _ => rfl) (fun _ => rfl) rfl

theorem crcCheck_format : Format 0x6#4 8 20 rfl fun x => .ok (.crcCheck x) :=
  .of_operand (fun _ => rfl) (fun _ => rfl) rfl

theorem ldi_format : Format 0x7#4 16 12 rfl fun x => .ok (.ldi x) :=
  .of_operand (fun _ => rfl) (fun _ => rfl) rfl

theorem bfRd_format : Format 0x8#4 (4 + 11) 13 rfl fun x => .ok (twoOperands (withWidthCode .bfRd) x) :=
  .of_twoOperands (fun _ => rfl) (fun _ _ => by simp [withWidthCode, encode]) rfl

theorem bfWr_format : Format 0x9#4 (4 + 11) 13 rfl fun x => .ok (twoOperands (withWidthCode .bfWr) x) :=
  .of_twoOperands (fun _ => rfl) (fun _ _ => by simp [withWidthCode, encode]) rfl

theorem leRd_format : Format 0xA#4 (4 + 8) 16 rfl fun x => .ok (twoOperands (withWidthCode .leRd) x) :=
  .of_twoOperands (fun _ => rfl) (fun _ _ => by simp [withWidthCode, encode]) rfl

theorem leWr_format : Format 0xB#4 (4 + 8) 16 rfl fun x => .ok (twoOperands (withWidthCode .leWr) x) :=
  .of_twoOperands (fun _ => rfl) (fun _ _ => by simp [withWidthCode, encode]) rfl

theorem fldRd_format : Format 0xC#4 7 21 rfl fun x => .ok (.fldRd x) :=
  .of_operand (fun _ => rfl) (fun _ => rfl) rfl

theorem fldWr_format : Format 0xD#4 7 21 rfl fun x => .ok (.fldWr x) :=
  .of_operand (fun _ => rfl) (fun _ => rfl) rfl

theorem frStamp_format : Format 0xE#4 1 27 rfl fun x => .ok (.frStamp (frameOfBit (x.getLsbD 0))) :=
  .of_operand (fun _ => by simp [decodeUnder, decodeOpcode]) (fun x => by rw [encode, frameBit_frameOfBit]; rfl) rfl

theorem frCheck_format : Format 0xF#4 1 27 rfl fun x => .ok (.frCheck (frameOfBit (x.getLsbD 0))) :=
  .of_operand (fun _ => by simp [decodeUnder, decodeOpcode]) (fun x => by rw [encode, frameBit_frameOfBit]; rfl) rfl

/-- Every opcode but SYS has a format in which every operand field is a command (R83). -/
theorem exists_format {op : BitVec 4} (h : op ≠ 0x0#4) :
    ∃ (n k : Nat) (hn : 4 + k + n = 32) (make : BitVec n → Instr), Format op n k hn fun x => .ok (make x) := by
  match op with
  | ⟨0⟩ => exact absurd rfl h
  | ⟨1⟩ => exact ⟨_, _, _, _, crcByte_format⟩
  | ⟨2⟩ => exact ⟨_, _, _, _, crcMem_format⟩
  | ⟨3⟩ => exact ⟨_, _, _, _, crcBlk_format⟩
  | ⟨4⟩ => exact ⟨_, _, _, _, crcSeg_format⟩
  | ⟨5⟩ => exact ⟨_, _, _, _, crcStore_format⟩
  | ⟨6⟩ => exact ⟨_, _, _, _, crcCheck_format⟩
  | ⟨7⟩ => exact ⟨_, _, _, _, ldi_format⟩
  | ⟨8⟩ => exact ⟨_, _, _, _, bfRd_format⟩
  | ⟨9⟩ => exact ⟨_, _, _, _, bfWr_format⟩
  | ⟨10⟩ => exact ⟨_, _, _, _, leRd_format⟩
  | ⟨11⟩ => exact ⟨_, _, _, _, leWr_format⟩
  | ⟨12⟩ => exact ⟨_, _, _, _, fldRd_format⟩
  | ⟨13⟩ => exact ⟨_, _, _, _, fldWr_format⟩
  | ⟨14⟩ => exact ⟨_, _, _, _, frStamp_format⟩
  | ⟨15⟩ => exact ⟨_, _, _, _, frCheck_format⟩
  | ⟨⟨v + 16, hv⟩⟩ => omega

/-! ### Decoding and encoding are inverse (R82 to R85) -/

theorem Format.decode_encode_twoOperands {op : BitVec 4} {n m k : Nat} {hn : 4 + k + (m + n) = 32}
    {make : BitVec n → BitVec m → Instr} (F : Format op (m + n) k hn fun x => .ok (twoOperands make x))
    (low : BitVec n) (high : BitVec m) : decode (encode (make low high)) = .ok (make low high) :=
  F.decode_encode (x := high ++ low) (by rw [twoOperands_append])

theorem Format.decode_encode_width {op : BitVec 4} {n k : Nat} {hn : 4 + k + (4 + n) = 32}
    {make : BitVec n → Nat → Instr} (F : Format op (4 + n) k hn fun x => .ok (twoOperands (withWidthCode make) x))
    (x : BitVec n) {width : Nat} (h : widthOk width = true) : decode (encode (make x width)) = .ok (make x width) := by
  rw [← withWidthCode_widthCode make x h]
  exact F.decode_encode_twoOperands x (widthCode width)

/-- Settles O1: each command is the reading of its operand field in its opcode's format. -/
theorem decodeOfEncodeIsTheInstruction : Obligations.DecodeOfEncodeIsTheInstruction := by
  intro i hi
  cases i with
  | nop | crcInit | sclr | movrd | movcr => rfl
  | crcByte imm8 => exact crcByte_format.decode_encode rfl
  | crcMem a => exact crcMem_format.decode_encode rfl
  | crcBlk a len => exact crcBlk_format.decode_encode_twoOperands a len
  | crcSeg a len => exact crcSeg_format.decode_encode_twoOperands a len
  | crcStore a => exact crcStore_format.decode_encode rfl
  | crcCheck a => exact crcCheck_format.decode_encode rfl
  | ldi imm16 => exact ldi_format.decode_encode rfl
  | bfRd bit width => exact bfRd_format.decode_encode_width bit hi
  | bfWr bit width => exact bfWr_format.decode_encode_width bit hi
  | leRd a width => exact leRd_format.decode_encode_width a hi
  | leWr a width => exact leWr_format.decode_encode_width a hi
  | fldRd id => exact fldRd_format.decode_encode rfl
  | fldWr id => exact fldWr_format.decode_encode rfl
  | frStamp f => exact frStamp_format.decode_encode (x := frameBit f) (by rw [frameOfBit_frameBit])
  | frCheck f => exact frCheck_format.decode_encode (x := frameBit f) (by rw [frameOfBit_frameBit])

/-- Settles O2: an accepted word has zeros in the reserved bits of its opcode's format. -/
theorem everyAcceptedWordEncodesItsCommand : Obligations.EveryAcceptedWordEncodesItsCommand := by
  intro w i h
  refine ⟨decode_wellFormed h, ?_⟩
  by_cases hop : w.extractLsb' 28 4 = 0x0#4
  · exact sys_format.encode_of_decode hop h
  · obtain ⟨n, k, hn, make, F⟩ := exists_format hop
    exact F.encode_of_decode rfl h

/-- R85's own description of an ILLEGAL word is the decoder's. -/
theorem illegalWord_iff (w : Word) : illegalWord w = true ↔ ∃ e, decode w = .error e := by
  by_cases hop : w.extractLsb' 28 4 = 0x0#4
  · rw [sys_format.decode_error_iff hop, sysFunc_error_iff]
    simp [illegalWord, hop]
  · obtain ⟨n, k, hn, make, F⟩ := exists_format hop
    rw [F.decode_error_iff rfl]
    simp [illegalWord, hop]

/-- Fault entry as R252 describes it. -/
theorem raiseFault_eq_afterFault (c : Cause) (w : Word) (s : State) : raiseFault c w s = s.afterFault c.code w := rfl

/-- Settles O3: an illegal word is one that the decoder rejects, and the command of any other is unique by O1. -/
theorem everyWordIsOneCommandOrIllegal : Obligations.EveryWordIsOneCommandOrIllegal := by
  intro s w hrun
  cases hdecode : decode w with
  | error e =>
    have hillegal : illegalWord w = true := (illegalWord_iff w).mpr ⟨e, hdecode⟩
    exact ⟨fun _ => commandPort_illegal hrun hdecode, fun hlegal => by simp [hillegal] at hlegal⟩
  | ok i =>
    obtain ⟨hi, hencode⟩ := everyAcceptedWordEncodesItsCommand w i hdecode
    refine ⟨fun hillegal => ?_, fun _ => ⟨i, hi, hencode, commandPort_runs hrun hdecode, fun j hj hw => ?_⟩⟩
    · obtain ⟨e, herror⟩ := (illegalWord_iff w).mp hillegal
      cases hdecode.symm.trans herror
    · have hdecode' : decode w = .ok j := hw ▸ decodeOfEncodeIsTheInstruction j hj
      exact Except.ok.inj (hdecode'.symm.trans hdecode)

/-! ### The assembler's table (R88) -/

theorem formatWord_eq_ofNat (op : BitVec 4) {n k : Nat} (hn : 4 + k + n = 32) (x : BitVec n) :
    formatWord op hn x = BitVec.ofNat 32 (op.toNat * 2 ^ 28 + x.toNat) := by
  rw [← toNat_formatWord op hn x, BitVec.ofNat_toNat, BitVec.setWidth_eq]

theorem Format.encode_twoOperands {op : BitVec 4} {n m k : Nat} {hn : 4 + k + (m + n) = 32}
    {make : BitVec n → BitVec m → Instr} (F : Format op (m + n) k hn fun x => .ok (twoOperands make x))
    (low : BitVec n) (high : BitVec m) :
    encode (make low high) = BitVec.ofNat 32 (op.toNat * 2 ^ 28 + high.toNat * 2 ^ n + low.toNat) := by
  rw [F.encodes (x := high ++ low) (by rw [twoOperands_append]), formatWord_eq_ofNat, BitVec.toNat_append,
    ← Nat.shiftLeft_add_eq_or_of_lt low.isLt, Nat.shiftLeft_eq, Nat.add_assoc]

theorem toNat_ofNat_of_le {n v max : Nat} (hmax : max + 1 = 2 ^ n) (hv : v ≤ max) : (BitVec.ofNat n v).toNat = v := by
  rw [BitVec.toNat_ofNat, Nat.mod_eq_of_lt (by omega)]

theorem fits_eq {n max : Nat} (hmax : max + 1 = 2 ^ n) (v : Nat) :
    fits n v = if v ≤ max then some (BitVec.ofNat n v) else none := by
  simp only [fits, ← hmax, Nat.lt_succ_iff]

theorem widthFits_eq (width : Nat) : widthFits width = if 1 ≤ width ∧ width ≤ 16 then some width else none := by
  simp only [widthFits, widthOk, decide_eq_true_eq]

/-- A line with one operand. -/
theorem Format.assemble_operand {op : BitVec 4} {n k : Nat} {hn : 4 + k + n = 32} {make : BitVec n → Instr}
    (F : Format op n k hn fun x => .ok (make x)) {top max : Nat} (htop : op.toNat * 2 ^ 28 = top)
    (hmax : max + 1 = 2 ^ n) (v : Nat) :
    ((fits n v).map make).map encode = if v ≤ max then some (BitVec.ofNat 32 (top + v)) else none := by
  rw [fits_eq hmax]
  split
  · next hv =>
    rw [Option.map_some, Option.map_some, F.encodes rfl, formatWord_eq_ofNat, toNat_ofNat_of_le hmax hv, htop]
  · rfl

/-- A line with two operands of fixed fields. -/
theorem Format.assemble_twoOperands {op : BitVec 4} {n m k : Nat} {hn : 4 + k + (m + n) = 32}
    {make : BitVec n → BitVec m → Instr} (F : Format op (m + n) k hn fun x => .ok (twoOperands make x))
    {top maxLow maxHigh : Nat} (htop : op.toNat * 2 ^ 28 = top) (hlow : maxLow + 1 = 2 ^ n)
    (hhigh : maxHigh + 1 = 2 ^ m) (v u : Nat) :
    ((fits n v).bind fun x => (fits m u).map (make x)).map encode =
      if v ≤ maxLow ∧ u ≤ maxHigh then some (BitVec.ofNat 32 (top + u * 2 ^ n + v)) else none := by
  rw [fits_eq hlow, fits_eq hhigh]
  by_cases hv : v ≤ maxLow
  · by_cases hu : u ≤ maxHigh
    · have hencode := F.encode_twoOperands (BitVec.ofNat n v) (BitVec.ofNat m u)
      rw [toNat_ofNat_of_le hlow hv, toNat_ofNat_of_le hhigh hu, htop] at hencode
      simp [hv, hu, hencode]
    · simp [hu]
  · simp [hv]

/-- A line with an operand and a width. -/
theorem Format.assemble_width {op : BitVec 4} {n k : Nat} {hn : 4 + k + (4 + n) = 32}
    {make : BitVec n → Nat → Instr} (F : Format op (4 + n) k hn fun x => .ok (twoOperands (withWidthCode make) x))
    {top max : Nat} (htop : op.toNat * 2 ^ 28 = top) (hmax : max + 1 = 2 ^ n) (v width : Nat) :
    ((fits n v).bind fun x => (widthFits width).map (make x)).map encode =
      if v ≤ max ∧ 1 ≤ width ∧ width ≤ 16 then some (BitVec.ofNat 32 (top + (width - 1) * 2 ^ n + v)) else none := by
  rw [fits_eq hmax, widthFits_eq]
  by_cases hv : v ≤ max
  · by_cases hwidth : 1 ≤ width ∧ width ≤ 16
    · have hcode : (widthCode width).toNat = width - 1 := toNat_ofNat_of_le (max := 15) rfl (by omega)
      have hencode := F.encode_twoOperands (BitVec.ofNat n v) (widthCode width)
      rw [withWidthCode_widthCode make _ (decide_eq_true hwidth), hcode, toNat_ofNat_of_le hmax hv, htop] at hencode
      simp [hv, hwidth, hencode]
    · simp [hwidth]
  · simp [hv]

/-- Settles O4, line by line. -/
theorem assemblerTableGivesTheWords : Obligations.AssemblerTableGivesTheWords := by
  intro n a len imm16 bit width id
  exact ⟨rfl, rfl, rfl, rfl, rfl,
    crcByte_format.assemble_operand rfl rfl n,
    crcMem_format.assemble_operand rfl rfl a,
    crcBlk_format.assemble_twoOperands rfl rfl rfl a len,
    crcSeg_format.assemble_twoOperands rfl rfl rfl a len,
    crcStore_format.assemble_operand rfl rfl a,
    crcCheck_format.assemble_operand rfl rfl a,
    ldi_format.assemble_operand rfl rfl imm16,
    bfRd_format.assemble_width rfl rfl bit width,
    bfWr_format.assemble_width rfl rfl bit width,
    leRd_format.assemble_width rfl rfl a width,
    leWr_format.assemble_width rfl rfl a width,
    fldRd_format.assemble_operand rfl rfl id,
    fldWr_format.assemble_operand rfl rfl id,
    rfl, rfl, rfl, rfl⟩

end Sys2Proof.Machine

/-! SUPPORT. Proofs of the statements of 40_crc.md: the algebra of the CRC step, and each CRC command as its rule puts
it. -/

namespace Sys2Proof.Machine

/-! ### The iterations of one step (R110) -/

theorem crcShifts_eq_iterate (n : Nat) (c : Half) : crcShifts n c = crcShift^[n] c := by
  induction n generalizing c with
  | zero => rfl
  | succ k ih => exact ih _

/-- Settles O14: the rule's own iteration is `crcShift`. -/
theorem crcStepIsXorThenEightShifts : Obligations.CrcStepIsXorThenEightShifts := by
  intro c b
  rw [crcStep_eq, crcShifts_eq_iterate]
  rfl

/-- Settles O15: the shifts are injective, and so is XOR with the other argument. -/
theorem crcStepIsInvertible : Obligations.CrcStepIsInvertible := by
  refine ⟨fun b c d h => (BitVec.xor_right_inj _).mp (crcShifts_injective 8 h), fun c a b h => ?_⟩
  have hwide : a.setWidth 16 = b.setWidth 16 := (BitVec.xor_left_inj _).mp (crcShifts_injective 8 h)
  simpa using congrArg (BitVec.setWidth 8) hwide

/-- The iteration as one expression: the polynomial under the bit shifted out. -/
theorem crcShift_eq_xor (c : Half) : crcShift c = (c >>> 1) ^^^ (if c.getLsbD 0 then Config.crcPoly else 0#16) := by
  unfold crcShift
  split <;> simp

/-- An iteration is linear over XOR: where both low bits are set the polynomial enters twice, which is not at all. -/
theorem crcShift_xor (x y : Half) : crcShift (x ^^^ y) = crcShift x ^^^ crcShift y := by
  have hpoly : (if (x ^^^ y).getLsbD 0 then Config.crcPoly else 0#16) =
      (if x.getLsbD 0 then Config.crcPoly else 0#16) ^^^ (if y.getLsbD 0 then Config.crcPoly else 0#16) := by
    rw [BitVec.getLsbD_xor]
    cases x.getLsbD 0 <;> cases y.getLsbD 0 <;> rfl
  rw [crcShift_eq_xor, crcShift_eq_xor x, crcShift_eq_xor y, hpoly, BitVec.ushiftRight_xor_distrib]
  ac_rfl

theorem crcShifts_xor (n : Nat) (x y : Half) : crcShifts n (x ^^^ y) = crcShifts n x ^^^ crcShifts n y := by
  induction n generalizing x y with
  | zero => rfl
  | succ k ih => rw [crcShifts, crcShift_xor, ih]; rfl

/-- While only zeros are shifted out, the polynomial never enters. -/
theorem crcShifts_of_low_bits_zero {n : Nat} {c : Half} (h : ∀ j < n, c.getLsbD j = false) :
    crcShifts n c = c >>> n := by
  induction n generalizing c with
  | zero => simp [crcShifts]
  | succ k ih =>
    have hshift : crcShift c = c >>> 1 := by rw [crcShift, h 0 k.succ_pos]; rfl
    have hlow : ∀ j < k, (c >>> 1).getLsbD j = false := fun j hj => by
      rw [BitVec.getLsbD_ushiftRight]
      exact h _ (by omega)
    rw [crcShifts, hshift, ih hlow, ← BitVec.shiftRight_add, Nat.add_comm]

/-! ### The step on a running value split into its two bytes -/

theorem setWidth_byte_eq_append (b : Byte) : b.setWidth 16 = 0#8 ++ b := BitVec.setWidth_eq_append (by decide)

@[simp] theorem highByte_append (hi lo : Byte) : (hi ++ lo : Half).extractLsb' 8 8 = hi :=
  BitVec.extractLsb'_append_eq_left

@[simp] theorem lowByte_append (hi lo : Byte) : (hi ++ lo : Half).extractLsb' 0 8 = lo :=
  BitVec.extractLsb'_append_eq_right

theorem exists_eq_append_bytes (c : Half) : ∃ hi lo : Byte, c = hi ++ lo :=
  ⟨_, _, (append_extractLsb'_eq (n := 8) (m := 8) c).symm⟩

/-- The byte meets the low byte alone. -/
theorem crcStep_append (hi lo b : Byte) : crcStep (hi ++ lo) b = crcShifts 8 (hi ++ (lo ^^^ b)) := by
  rw [crcStep_eq, setWidth_byte_eq_append, BitVec.xor_append, BitVec.xor_zero]

/-- With nothing to shift out, eight iterations move the high byte down. -/
theorem crcShifts_eight_append_zero (hi : Byte) : crcShifts 8 (hi ++ 0#8) = 0#8 ++ hi := by
  have hlow : ∀ j < 8, (hi ++ 0#8).getLsbD j = false := fun j hj => by
    rw [BitVec.getLsbD_append, if_pos hj, BitVec.getLsbD_zero]
  rw [crcShifts_of_low_bits_zero hlow]
  refine BitVec.eq_of_getLsbD_eq fun j hj => ?_
  rw [BitVec.getLsbD_ushiftRight, BitVec.getLsbD_append, BitVec.getLsbD_append]
  by_cases hbyte : j < 8
  · simp [hbyte]
  · simp [hbyte, Nat.not_lt.mp hbyte]

/-- Folding the running value's own low byte leaves its high byte. -/
theorem crcStep_own_low_byte (hi lo : Byte) : crcStep (hi ++ lo) lo = 0#8 ++ hi := by
  rw [crcStep_append, BitVec.xor_self, crcShifts_eight_append_zero]

/-- A value followed by its own two bytes, low byte first, folds to 0. -/
theorem crc16_own_bytes (c : Half) : crc16 [c.extractLsb' 0 8, c.extractLsb' 8 8] c = 0#16 := by
  obtain ⟨hi, lo, rfl⟩ := exists_eq_append_bytes c
  rw [highByte_append, lowByte_append, crc16, crc16, crcStep_own_low_byte, crcStep_own_low_byte]
  rfl

/-- The 256-entry table of a table-driven CRC: what eight iterations make of a low byte. -/
def crcTable (lo : Byte) : Half := crcShifts 8 (0#8 ++ lo)

/-- The table-driven form of the eight iterations. -/
theorem crcShifts_eight_append (hi lo : Byte) : crcShifts 8 (hi ++ lo) = (0#8 ++ hi) ^^^ crcTable lo := by
  rw [crcTable, ← crcShifts_eight_append_zero hi, ← crcShifts_xor, BitVec.xor_append, BitVec.xor_zero,
    BitVec.zero_xor]

/-- The only table entries whose two bytes XOR to their index are those of the indices 0x00 and 0x01. -/
theorem crcTable_selfIndexed : ∀ lo : Byte, (crcTable lo).extractLsb' 8 8 ^^^ (crcTable lo).extractLsb' 0 8 = lo →
    (crcTable lo).extractLsb' 8 8 ++ lo = 0x0000#16 ∨ (crcTable lo).extractLsb' 8 8 ++ lo = 0xC001#16 := by
  decide

/-- A zero byte keeps exactly the running values 0x0000 and 0xC001: the high byte of such a value is the high byte of
its low byte's table entry. -/
theorem crcStep_zero_eq_self_iff (c : Half) : crcStep c 0x00#8 = c ↔ c = 0x0000#16 ∨ c = 0xC001#16 := by
  refine ⟨fun h => ?_, by rintro (rfl | rfl) <;> decide⟩
  obtain ⟨hi, lo, rfl⟩ := exists_eq_append_bytes c
  rw [crcStep_append, BitVec.xor_zero, crcShifts_eight_append] at h
  have hhigh : (crcTable lo).extractLsb' 8 8 = hi := by
    simpa [BitVec.extractLsb'_xor] using congrArg (BitVec.extractLsb' 8 8) h
  have hlow : hi ^^^ (crcTable lo).extractLsb' 0 8 = lo := by
    simpa [BitVec.extractLsb'_xor] using congrArg (BitVec.extractLsb' 0 8) h
  rw [← hhigh] at hlow ⊢
  exact crcTable_selfIndexed lo hlow

/-! ### The fold over a range, as the statements write it -/

theorem crc16_eq_foldl (bytes : List Byte) (c : Half) : crc16 bytes c = bytes.foldl crcStep c := by
  induction bytes generalizing c with
  | nil => rfl
  | cons b rest ih => exact ih _

theorem fbBytes_eq_bytesAt (s : State) (a n : Nat) : fbBytes s a n = bytesAt s a n := by
  induction n generalizing a with
  | zero => rfl
  | succ k ih =>
    rw [fbBytes, ih, bytesAt, bytesAt, List.range_succ_eq_map, List.map_cons, List.map_map]
    simp only [Function.comp_def, Nat.add_zero, Nat.succ_eq_add_one, Nat.add_assoc, Nat.add_comm 1]

/-- The registers besides FB are not seen in the bytes of a range. -/
theorem fbBytes_of_same_fb {s t : State} (hfb : t.fb = s.fb) (hr : t.resets = s.resets) (a n : Nat) :
    fbBytes t a n = fbBytes s a n := fbBytes_congr fun b _ _ => readByte_congr hfb hr b

/-! ### The two ways a command word faults (R85, R250) -/

/-- R85 (a): a word with a reserved bit of its format set is ILLEGAL. -/
theorem Format.rejectsReservedBits {op : BitVec 4} {n k : Nat} {hn : 4 + k + n = 32}
    {operands : BitVec n → Except Illegal Instr} (F : Format op n k hn operands) : RejectsReservedBits op n k := by
  intro s w hrun hop hreserved
  have hdecode : decode w = .error .reservedBit := by rw [F.decode_eq hop, if_neg hreserved]
  exact commandPort_illegal hrun hdecode

/-- A byte range check, as R250 writes it. -/
theorem ifInRange_bytesInRange (a n : Nat) (i : Instr) (s t : State) :
    ifInRange (bytesInRange a n) i s t = if 256 < a + n then .next (s.afterFault 2#32 (encode i)) else .next t := by
  by_cases h : 256 < a + n
  · rw [(bytesInRange_false_iff a n).mpr h, ifInRange_false, if_pos h]
    rfl
  · rw [(bytesInRange_iff a n).mpr (Nat.not_lt.mp h), ifInRange_true, if_neg h]

/-! ### The commands, one equation each (R112 to R118) -/

theorem exec_crcBlk (a : BitVec 8) (len : BitVec 9) (s : State) :
    exec (.crcBlk a len) s =
      if 256 < a.toNat + len.toNat then .next (s.afterFault 2#32 (encode (.crcBlk a len)))
      else .next { s with crc := crc16 (fbBytes s a.toNat len.toNat) s.crc } := ifInRange_bytesInRange ..

theorem exec_crcSeg (a : BitVec 8) (len : BitVec 9) (s : State) :
    exec (.crcSeg a len) s =
      if 256 < a.toNat + len.toNat then .next (s.afterFault 2#32 (encode (.crcSeg a len)))
      else .next { s with
        crc := crc16 (fbBytes s a.toNat len.toNat) Config.crcInit
        res := crc16 (fbBytes s a.toNat len.toNat) Config.crcInit } := ifInRange_bytesInRange ..

theorem exec_crcStore (a : BitVec 8) (s : State) :
    exec (.crcStore a) s =
      if 256 < a.toNat + 2 then .next (s.afterFault 2#32 (encode (.crcStore a)))
      else .next (memWrite2 a.toNat s.crc s) := ifInRange_bytesInRange ..

/-- STATUS.MISMATCH is bit 3 (R27). -/
theorem setStatusBit_mismatch (v : Bool) (s : State) :
    setStatusBit .mismatch v s = { s with status := putIf v 0x00000008#32 s.status } := rfl

theorem exec_crcCheck (a : BitVec 8) (s : State) :
    exec (.crcCheck a) s =
      if 256 < a.toNat + 2 then .next (s.afterFault 2#32 (encode (.crcCheck a)))
      else .next { s with
        res := storedHalf s a.toNat
        status := putIf (decide (storedHalf s a.toNat ≠ s.crc)) 0x00000008#32 s.status } := by
  rw [exec, execCrcCheck, ifInRange_bytesInRange, setStatusBit_mismatch]
  rfl

/-- The two bytes at `a` end inside FB unless `a` is the last address. -/
theorem two_bytes_inRange {a : BitVec 8} (h : a ≠ 0xFF#8) : ¬ 256 < a.toNat + 2 := by bv_omega

/-- Settles O10: the arm of CRC.INIT, and the reserved bits of the SYS format. -/
theorem crcInitSetsCrcToAllOnes : Obligations.CrcInitSetsCrcToAllOnes :=
  ⟨fun _ => rfl, sys_format.rejectsReservedBits⟩

/-- Settles O16: of the fixed points, 0xC001 is the one that R113's remark leaves out (log 17). -/
theorem crcByteFoldsTheImmediate : Obligations.CrcByteFoldsTheImmediate :=
  ⟨fun _ _ => rfl, crcStep_zero_eq_self_iff, by decide, crcByte_format.rejectsReservedBits⟩

/-- Settles O17: no range check stands in the arm of CRC.MEM. -/
theorem crcMemFoldsOneByteOfFB : Obligations.CrcMemFoldsOneByteOfFB :=
  ⟨fun _ _ => rfl, crcMem_format.rejectsReservedBits⟩

/-- Settles O18: the machine's fold over its own list of bytes is the left fold over the range. -/
theorem crcBlkContinuesOverTheRange : Obligations.CrcBlkContinuesOverTheRange := by
  refine ⟨fun a len s => ?_, crcBlk_format.rejectsReservedBits⟩
  rw [exec_crcBlk, crc16_eq_foldl, fbBytes_eq_bytesAt]

/-- Settles O19: the machine's fold over its own list of bytes is the left fold over the range. -/
theorem crcSegStartsFresh : Obligations.CrcSegStartsFresh := by
  refine ⟨fun a len s => ?_, crcSeg_format.rejectsReservedBits⟩
  rw [exec_crcSeg, crc16_eq_foldl, fbBytes_eq_bytesAt, Config.crcInit]

/-- Settles O20: FB after the store is FB after a little-endian write of CRC. -/
theorem crcStoreWritesTwoBytes : Obligations.CrcStoreWritesTwoBytes := by
  refine ⟨fun a s ha => ?_, fun s => exec_crcStore 0xFF#8 s, crcStore_format.rejectsReservedBits⟩
  refine ⟨memWrite2 a.toNat s.crc s, ?_, rfl, readByte_memWrite2 a.toNat s.crc s⟩
  rw [exec_crcStore, if_neg (two_bytes_inRange ha)]

/-- Settles O21: only the last address of FB fails the range check. -/
theorem crcCheckComparesTheStoredValue : Obligations.CrcCheckComparesTheStoredValue := by
  refine ⟨fun a s ha => ?_, fun s => exec_crcCheck 0xFF#8 s, crcCheck_format.rejectsReservedBits⟩
  rw [exec_crcCheck, if_neg (two_bytes_inRange ha)]

/-! ### Several commands in a row (R119, V18) -/

/-- CRC.BLK inside FB, from a state whose CRC was written: FB is read as before. -/
theorem exec_crcBlk_of_crc {a : BitVec 8} {len : BitVec 9} (s : State) (c : Half) (h : a.toNat + len.toNat ≤ 256) :
    exec (.crcBlk a len) { s with crc := c } =
      .next { s with crc := crc16 (fbBytes s a.toNat len.toNat) c } := by
  rw [exec_crcBlk, if_neg (Nat.not_lt.mpr h), fbBytes_of_same_fb (t := { s with crc := c }) (s := s) rfl rfl]

/-- Settles O22: the second block folds the second part of the range, from the first part's CRC. -/
theorem adjacentBlocksChain : Obligations.AdjacentBlocksChain := by
  intro s a b m n k hb hk hrange
  refine ⟨_, exec_crcBlk_of_crc s s.crc (by omega), ?_⟩
  have hchain : crc16 (fbBytes s b.toNat n.toNat) (crc16 (fbBytes s a.toNat m.toNat) s.crc) =
      crc16 (fbBytes s a.toNat k.toNat) s.crc := by rw [hk, fbBytes_add, crc16_concat, hb]
  rw [exec_crcBlk_of_crc s _ (by omega), hchain]
  exact (exec_crcBlk_of_crc s s.crc hrange).symm

/-- CRC.SEG inside FB: CRC and RES are the CRC of the range, and FB is kept. -/
theorem exec_crcSeg_inRange {a : BitVec 8} {len : BitVec 9} (s : State) (h : a.toNat + len.toNat ≤ 256) :
    ∃ t : State, exec (.crcSeg a len) s = .next t ∧ t.crc = crc16 (fbBytes s a.toNat len.toNat) Config.crcInit ∧
      t.res = crc16 (fbBytes s a.toNat len.toNat) Config.crcInit ∧ t.fb = s.fb ∧ t.resets = s.resets := by
  rw [exec_crcSeg, if_neg (Nat.not_lt.mpr h)]
  exact ⟨_, rfl, rfl, rfl, rfl, rfl⟩

/-- The bytes of a range after a 2-byte store at its end: the old ones, then the stored value's, low byte first. -/
theorem fbBytes_memWrite2_at_end (s : State) (a n : Nat) (c : Half) :
    fbBytes (memWrite2 (a + n) c s) a (n + 2) = fbBytes s a n ++ [c.extractLsb' 0 8, c.extractLsb' 8 8] := by
  have hbefore : fbBytes (memWrite2 (a + n) c s) a n = fbBytes s a n := fbBytes_congr fun b _ hb => by
    rw [readByte_memWrite2, if_neg (by omega), if_neg (by omega)]
  rw [fbBytes_add, hbefore]
  simp [fbBytes, readByte_memWrite2]

/-- Storing the CRC of a range at its end makes the CRC of the longer range 0. -/
theorem crc16_memWrite2_own_crc {s : State} {a n : Nat} {c0 c : Half} (h : c = crc16 (fbBytes s a n) c0) :
    crc16 (fbBytes (memWrite2 (a + n) c s) a (n + 2)) c0 = 0#16 := by
  rw [fbBytes_memWrite2_at_end, crc16_concat, ← h, crc16_own_bytes]

/-- Settles O23: the second CRC.SEG folds the stored bytes of the first one's CRC into that very CRC. -/
theorem segmentFollowedByItsCrcFoldsToZero : Obligations.SegmentFollowedByItsCrcFoldsToZero := by
  intro s a e len len2 he hlen2 hrange
  obtain ⟨t, hseg, hcrc, -, hfb, hresets⟩ := exec_crcSeg_inRange (a := a) (len := len) s (by omega)
  have hstore : exec (.crcStore e) t = .next (memWrite2 e.toNat t.crc t) := by
    rw [exec_crcStore, if_neg (by omega)]
  obtain ⟨v, hseg2, hcrc2, hres2, -, -⟩ := exec_crcSeg_inRange (memWrite2 e.toNat t.crc t) hrange
  have hzero : crc16 (fbBytes (memWrite2 e.toNat t.crc t) a.toNat len2.toNat) Config.crcInit = 0#16 := by
    rw [he, hlen2]
    exact crc16_memWrite2_own_crc (hcrc.trans (by rw [fbBytes_of_same_fb hfb hresets]))
  exact ⟨t, _, v, hseg, hstore, hseg2, hcrc2.trans hzero, hres2.trans hzero⟩

end Sys2Proof.Machine

/-! SUPPORT. Proofs of the statements of 41_system_data.md: NOP, SCLR, the register moves and LDI. -/

namespace Sys2Proof.Machine

/-- The word 0 is a command of the SYS format, with func 0x0. -/
theorem decode_nop_word : decode 0x00000000#32 = .ok .nop := by
  rw [sys_format.decode_eq (by decide), if_pos (by decide)]
  rfl

/-- Settles O9: a halted block ignores the word 0, and a running one executes it as NOP. -/
theorem nopChangesNothing : Obligations.NopChangesNothing := by
  refine ⟨fun _ => rfl, fun s => ?_, sys_format.rejectsReservedBits⟩
  cases hrun : halted s with
  | true => exact commandPort_halted hrun
  | false => exact commandPort_runs hrun decode_nop_word

/-- EERR is bit 4 of STATUS and OVF bit 5 (R27): to clear both is one mask. -/
theorem clear_eerr_ovf (s : State) :
    setStatusBit .ovf false (setStatusBit .eerr false s) = { s with status := s.status &&& 0xFFFFFFCF#32 } := by
  have hmask : ~~~BitVec.twoPow 32 4 &&& ~~~BitVec.twoPow 32 5 = 0xFFFFFFCF#32 := by decide
  rw [← hmask, ← BitVec.and_assoc]
  rfl

/-- Settles O11: a halted block takes no SCLR, which is why FAULT stays. -/
theorem sclrClearsEerrAndOvfOnly : Obligations.SclrClearsEerrAndOvfOnly :=
  ⟨fun s => congrArg Host.Outcome.next (clear_eerr_ovf s), fun _ hhalted => commandPort_halted hhalted⟩

/-- Settles O12: each arm is one register write. -/
theorem movesCopyOneRegister : Obligations.MovesCopyOneRegister := ⟨fun _ => rfl, fun _ => rfl⟩

/-- Settles O13: the arm of LDI, and the reserved bits of its format. -/
theorem ldiLoadsD : Obligations.LdiLoadsD := ⟨fun _ _ => rfl, ldi_format.rejectsReservedBits⟩

end Sys2Proof.Machine

/-! SUPPORT. Proofs of the statements of 42_bitfield.md. A BF field and an LE field are both a `Config.FieldEntry`, and
such a field is a list of stream bits: what a read gives and what a write changes is said of those once, for both orders
and for the schema's fields. -/

namespace Sys2Proof.Machine

open Config (FieldEntry)

/-! ### A field as a list of stream bits (R8, R9) -/

/-- The stream bit address of bit `j` of a field: counted from the field's last bit for BF (BFRead), from bit 0 of each
byte for LE (LERead). -/
def fieldBitAddr (e : FieldEntry) (j : Nat) : Nat :=
  match e.kind with
  | .bf => e.operand + (e.width - 1 - j)
  | .le => 8 * (e.operand + j / 8) + (7 - j % 8)

theorem fieldBit_eq_bitRead (s : State) (e : FieldEntry) (j : Nat) :
    fieldBit s e j = bitRead s (fieldBitAddr e j) := by
  obtain ⟨kind, operand, width, enum⟩ := e
  cases kind with
  | bf => rfl
  | le => exact leBit_eq_bitRead s operand j

theorem getLsbD_fieldRead (s : State) (e : FieldEntry) {j : Nat} (hj : j < e.width) :
    (fieldRead s e).getLsbD j = fieldBit s e j := by
  obtain ⟨kind, operand, width, enum⟩ := e
  cases kind with
  | bf => exact getLsbD_bfRead s operand width j hj
  | le => exact getLsbD_leRead s operand width j hj

theorem bitRead_fieldWrite_at (e : FieldEntry) (v : BitVec e.width) (s : State) {j : Nat} (hj : j < e.width) :
    bitRead (fieldWrite e v s) (fieldBitAddr e j) = v.getLsbD j := by
  obtain ⟨kind, operand, width, enum⟩ := e
  cases kind with
  | bf =>
    change j < width at hj
    have hindex : width - 1 - (operand + (width - 1 - j) - operand) = j := by omega
    simp only [fieldWrite, fieldBitAddr, bitRead_bfWrite]
    rw [if_pos (by omega), hindex]
  | le =>
    change j < width at hj
    have hindex : 8 * ((8 * (operand + j / 8) + (7 - j % 8)) / 8 - operand) +
        (7 - (8 * (operand + j / 8) + (7 - j % 8)) % 8) = j := by omega
    simp only [fieldWrite, fieldBitAddr, bitRead_leWrite]
    rw [hindex, if_pos ⟨by omega, hj⟩]

theorem bitRead_fieldWrite_off (e : FieldEntry) (v : BitVec e.width) (s : State) {i : Nat}
    (hi : ∀ j < e.width, fieldBitAddr e j ≠ i) : bitRead (fieldWrite e v s) i = bitRead s i := by
  obtain ⟨kind, operand, width, enum⟩ := e
  cases kind with
  | bf =>
    simp only [fieldWrite, bitRead_bfWrite]
    refine if_neg fun hin => hi (operand + width - 1 - i) ?_ ?_
    · change _ < width
      omega
    · simp only [fieldBitAddr]
      omega
  | le =>
    simp only [fieldWrite, bitRead_leWrite]
    refine if_neg fun hin => hi _ hin.2 ?_
    simp only [fieldBitAddr]
    omega

/-- The statements' own index of a field's bits agrees with the addresses of these bits. -/
theorem fieldIndex_eq_some_iff (e : FieldEntry) {a k j : Nat} (hk : k < 8) :
    fieldIndex e a k = some j ↔ j < e.width ∧ fieldBitAddr e j = 8 * a + (7 - k) := by
  obtain ⟨kind, operand, width, enum⟩ := e
  cases kind with
  | bf =>
    simp only [fieldIndex, streamIndex, fieldBitAddr, Option.ite_none_right_eq_some, Option.some.injEq]
    omega
  | le =>
    simp only [fieldIndex, vectorIndex, fieldBitAddr, Option.ite_none_right_eq_some, Option.some.injEq]
    omega

theorem sameFB_of_bitRead {s t : State} (h : ∀ i, bitRead t i = bitRead s i) : SameFB s t :=
  fun a => readByte_eq_of_bits a fun _ _ => h _

/-! ### Reading and storing a field: what the commands do inside FB (R160, R162 to R165, R198, R199) -/

/-- `RES <- zext_16` of the field's value: BF.RD and LE.RD inside FB. -/
def loadField (e : FieldEntry) (s : State) : State := { s with res := (fieldRead s e).setWidth 16 }

/-- The field takes D's low bits, OVF is raised if D is wider (R160): BF.WR and LE.WR inside FB, and FLD.WR of a mapped
value. -/
def storeField (e : FieldEntry) (s : State) : State :=
  fieldWrite e (writeValue e.width s) (raiseFlag .ovf (overflows e.width s.d) s)

theorem getLsbD_loadField_res (e : FieldEntry) (s : State) {k : Nat} (hk : k < 16) :
    (loadField e s).res.getLsbD k = (decide (k < e.width) && fieldBit s e k) := by
  rw [loadField, BitVec.getLsbD_setWidth, decide_eq_true hk, Bool.true_and]
  by_cases hw : k < e.width
  · rw [getLsbD_fieldRead s e hw, decide_eq_true hw, Bool.true_and]
  · rw [BitVec.getLsbD_of_ge _ _ (Nat.not_lt.mp hw), decide_eq_false hw, Bool.false_and]

theorem getLsbD_writeValue (s : State) {w j : Nat} (hj : j < w) : (writeValue w s).getLsbD j = s.d.getLsbD j := by
  rw [writeValue, BitVec.getLsbD_setWidth, decide_eq_true hj, Bool.true_and]

theorem bitRead_storeField_at (e : FieldEntry) (s : State) {j : Nat} (hj : j < e.width) :
    bitRead (storeField e s) (fieldBitAddr e j) = s.d.getLsbD j := by
  rw [storeField, bitRead_fieldWrite_at e _ _ hj, getLsbD_writeValue s hj]

theorem bitRead_storeField_off (e : FieldEntry) (s : State) {i : Nat} (hi : ∀ j < e.width, fieldBitAddr e j ≠ i) :
    bitRead (storeField e s) i = bitRead s i := by
  rw [storeField, bitRead_fieldWrite_off e _ _ hi]
  exact bitRead_congr (raiseFlag_fb ..) (raiseFlag_resets ..) i

theorem storesD_storeField (e : FieldEntry) (s : State) : StoresD (fieldIndex e) s (storeField e s) := by
  intro a k hk
  rw [readByte_getLsbD _ a k hk, readByte_getLsbD _ a k hk]
  cases hindex : fieldIndex e a k with
  | some j =>
    obtain ⟨hj, haddr⟩ := (fieldIndex_eq_some_iff e hk).mp hindex
    rw [← haddr, bitRead_storeField_at e s hj]
  | none =>
    refine bitRead_storeField_off e s fun j hj haddr => ?_
    rw [(fieldIndex_eq_some_iff e hk).mpr ⟨hj, haddr⟩] at hindex
    cases hindex

/-! ### OVF (R160) -/

/-- R160's test of the bits above the field is a comparison of D with 2^w. -/
theorem overflows_eq_tooWide (w : Nat) (s : State) : overflows w s.d = tooWide s w := by
  have hhigh : s.d >>> w ≠ 0#16 ↔ 2 ^ w ≤ s.d.toNat := by
    rw [Ne, ← BitVec.toNat_inj, BitVec.toNat_ushiftRight, Nat.shiftRight_eq_div_pow, BitVec.toNat_zero,
      Nat.div_eq_zero_iff_lt (Nat.two_pow_pos w), Nat.not_lt]
  rw [overflows, tooWide, decide_eq_decide.mpr hhigh]

/-- OVF is bit 5 of STATUS (R27). -/
theorem raiseFlag_ovf (v : Bool) (s : State) :
    raiseFlag .ovf v s = { s with status := setIf v 0x00000020#32 s.status } := by
  cases v <;> rfl

/-- A sticky flag is set or kept, and no other flag is touched. -/
theorem statusBit_raiseFlag (b c : StatusBit) (v : Bool) (s : State) :
    statusBit c (raiseFlag b v s) = (statusBit c s || (decide (c = b) && v)) := by
  cases v with
  | false => simp
  | true =>
    rw [raiseFlag_true, statusBit_setStatusBit]
    by_cases h : c = b <;> simp [h]

theorem statusBit_congr {s t : State} (h : t.status = s.status) (b : StatusBit) : statusBit b t = statusBit b s := by
  rw [statusBit, h, statusBit]

/-- A state is its fields. -/
theorem State.ext {s t : State} (hcrc : s.crc = t.crc) (hd : s.d = t.d) (hres : s.res = t.res)
    (hstatus : s.status = t.status) (hcause : s.cause = t.cause) (hfcmd : s.fcmd = t.fcmd) (hfb : s.fb = t.fb)
    (hparams : s.params = t.params) (hresets : s.resets = t.resets) (hpending : s.pending = t.pending)
    (hresponse : s.response = t.response) : s = t := by
  cases s
  cases t
  simp_all

/-- Storing a field writes FB, and OVF of STATUS, and nothing else. -/
theorem storeField_eq (e : FieldEntry) (s : State) :
    storeField e s =
      { s with fb := (storeField e s).fb, status := setIf (tooWide s e.width) 0x00000020#32 s.status } := by
  apply State.ext
  case hstatus => rw [storeField, fieldWrite_status, raiseFlag_ovf, overflows_eq_tooWide]
  all_goals simp [storeField]

theorem statusBit_ovf_storeField (e : FieldEntry) (s : State) :
    statusBit .ovf (storeField e s) = (statusBit .ovf s || tooWide s e.width) := by
  rw [storeField, statusBit_congr (fieldWrite_status ..), statusBit_raiseFlag, overflows_eq_tooWide]
  simp

/-! ### The laws of R166 and R167, for any field -/

/-- The same value stored in two fields that are the same stream bits gives the same FB. -/
theorem sameFB_storeField_storeField {e f : FieldEntry} {s s' : State} (hwidth : e.width = f.width)
    (haddr : ∀ j < e.width, fieldBitAddr e j = fieldBitAddr f j)
    (hd : ∀ j < e.width, s'.d.getLsbD j = s.d.getLsbD j) (hfb : SameFB s s') :
    SameFB (storeField e s) (storeField f s') := by
  refine sameFB_of_bitRead fun i => ?_
  by_cases hi : ∃ j < e.width, fieldBitAddr e j = i
  · obtain ⟨j, hj, rfl⟩ := hi
    rw [bitRead_storeField_at e s hj, haddr j hj, bitRead_storeField_at f s' (hwidth ▸ hj), hd j hj]
  · have hoff : ∀ j < e.width, fieldBitAddr e j ≠ i := fun j hj h => hi ⟨j, hj, h⟩
    rw [bitRead_storeField_off e s hoff,
      bitRead_storeField_off f s' fun j hj => haddr j (hwidth ▸ hj) ▸ hoff j (hwidth ▸ hj), bitRead, bitRead, hfb]

/-- Storing the value that the field holds keeps FB (R166, third sentence). -/
theorem sameFB_storeField_of_held {e : FieldEntry} {s : State} (hd : ∀ j < e.width, s.d.getLsbD j = fieldBit s e j) :
    SameFB s (storeField e s) := by
  refine sameFB_of_bitRead fun i => ?_
  by_cases hi : ∃ j < e.width, fieldBitAddr e j = i
  · obtain ⟨j, hj, rfl⟩ := hi
    rw [bitRead_storeField_at e s hj, hd j hj, fieldBit_eq_bitRead]
  · exact bitRead_storeField_off e s fun j hj h => hi ⟨j, hj, h⟩

theorem toNat_writeValue (w : Nat) (s : State) : (writeValue w s).toNat = truncated s w := BitVec.toNat_setWidth ..

/-- A write of width w sees D[w-1:0] alone (R160). -/
theorem writeValue_truncated (w : Nat) (s : State) :
    writeValue w { s with d := BitVec.ofNat 16 (truncated s w) } = writeValue w s := by
  have hfits : s.d.toNat % 2 ^ w < 2 ^ 16 := (Nat.mod_le _ _).trans_lt s.d.isLt
  refine BitVec.eq_of_toNat_eq ?_
  rw [toNat_writeValue, toNat_writeValue]
  simp only [truncated, BitVec.toNat_ofNat, Nat.mod_eq_of_lt hfits, Nat.mod_mod]

/-- Only D[w-1:0] is written (R160). -/
theorem sameFB_storeField_truncated (e : FieldEntry) (s : State) :
    SameFB (storeField e s) (storeField e { s with d := BitVec.ofNat 16 (truncated s e.width) }) := by
  refine sameFB_storeField_storeField rfl (fun _ _ => rfl) (fun j hj => ?_) fun a => readByte_congr rfl rfl a
  rw [← getLsbD_writeValue s hj, ← getLsbD_writeValue _ hj, writeValue_truncated]

/-- A field just stored reads as D's low bits (R166, first sentence). -/
theorem fieldRead_storeField (e : FieldEntry) (s : State) :
    fieldRead (storeField e s) e = writeValue e.width s := by
  refine BitVec.eq_of_getLsbD_eq fun j hj => ?_
  rw [getLsbD_fieldRead _ e hj, fieldBit_eq_bitRead, bitRead_storeField_at e s hj, getLsbD_writeValue s hj]

theorem loadField_storeField {e : FieldEntry} {s : State} (hd : s.d.toNat < 2 ^ e.width) :
    loadField e (storeField e s) = { storeField e s with res := s.d } := by
  have hvalue : (writeValue e.width s).setWidth 16 = s.d := by
    refine BitVec.eq_of_toNat_eq ?_
    rw [BitVec.toNat_setWidth, toNat_writeValue, truncated, Nat.mod_eq_of_lt hd, Nat.mod_eq_of_lt s.d.isLt]
  rw [loadField, fieldRead_storeField, hvalue]

/-- Two fields that share no stream bit. -/
def FieldsDisjoint (e f : FieldEntry) : Prop := ∀ j < e.width, ∀ k < f.width, fieldBitAddr e j ≠ fieldBitAddr f k

theorem bfField_disjoint {i v k w : Nat} (h : i + v ≤ k ∨ k + w ≤ i) :
    FieldsDisjoint (bfField i v) (bfField k w) := by
  intro m (hm : m < v) n (hn : n < w)
  simp only [fieldBitAddr, bfField]
  omega

theorem leField_disjoint {a v b w : Nat} (h : 8 * a + v ≤ 8 * b ∨ 8 * b + w ≤ 8 * a) :
    FieldsDisjoint (leField a v) (leField b w) := by
  intro m (hm : m < v) n (hn : n < w)
  simp only [fieldBitAddr, leField]
  omega

/-- Storing a field keeps the value of every field that shares no stream bit with it (R166, second sentence). -/
theorem fieldRead_storeField_of_disjoint {e f : FieldEntry} (s : State) (h : FieldsDisjoint e f) :
    fieldRead (storeField e s) f = fieldRead s f := by
  refine BitVec.eq_of_getLsbD_eq fun k hk => ?_
  rw [getLsbD_fieldRead _ f hk, getLsbD_fieldRead _ f hk, fieldBit_eq_bitRead, fieldBit_eq_bitRead,
    bitRead_storeField_off e s fun j hj => h j hj k hk]

theorem loadField_storeField_of_disjoint {e f : FieldEntry} (s : State) (h : FieldsDisjoint e f) :
    loadField f (storeField e s) = { storeField e s with res := (loadField f s).res } := by
  rw [loadField, fieldRead_storeField_of_disjoint s h, loadField]

/-- What the read of a field and MOVRD leave: the field's value in RES and in D (R142). -/
def fetchField (e : FieldEntry) (s : State) : State := { loadField e s with d := (loadField e s).res }

/-- Storing back what was just read keeps FB (R166, third sentence). -/
theorem sameFB_storeField_fetchField {e : FieldEntry} (s : State) (hwidth : e.width ≤ 16) :
    SameFB s (storeField e (fetchField e s)) := by
  have hfetch : SameFB s (fetchField e s) := fun a => readByte_congr rfl rfl a
  have hstore : SameFB (fetchField e s) (storeField e (fetchField e s)) := sameFB_storeField_of_held fun j hj => by
    rw [fetchField, getLsbD_loadField_res e s (hj.trans_le hwidth), decide_eq_true hj, Bool.true_and,
      fieldBit_eq_bitRead, fieldBit_eq_bitRead]
    exact (bitRead_congr rfl rfl _).symm
  exact fun a => (hstore a).trans (hfetch a)

/-- A value just read fits its field, so storing it back raises no OVF. -/
theorem status_storeField_fetchField (e : FieldEntry) (s : State) :
    (storeField e (fetchField e s)).status = s.status := by
  have hfits : (fetchField e s).d.toNat < 2 ^ e.width := by
    rw [fetchField, loadField, BitVec.toNat_setWidth]
    exact (Nat.mod_le _ _).trans_lt (fieldRead s e).isLt
  have hnarrow : tooWide (fetchField e s) e.width = false := by
    rw [tooWide, decide_eq_false (Nat.not_le.mpr hfits), Bool.and_false]
  rw [storeField_eq, hnarrow]
  rfl

/-- In a byte's last `w` stream bits the two orders name the same bits (R167). -/
theorem fieldBitAddr_bfField_eq_leField {i a w j : Nat} (hw : w ≤ 8) (hi : i + w = 8 * a + 8) (hj : j < w) :
    fieldBitAddr (bfField i w) j = fieldBitAddr (leField a w) j := by
  simp only [fieldBitAddr, bfField, leField]
  omega

theorem bfRead_eq_leRead {i a w : Nat} (s : State) (hw : w ≤ 8) (hi : i + w = 8 * a + 8) :
    bfRead s i w = leRead s a w := by
  refine BitVec.eq_of_getLsbD_eq fun j hj => ?_
  have hbf := getLsbD_fieldRead s (bfField i w) hj
  have hle := getLsbD_fieldRead s (leField a w) hj
  rw [fieldBit_eq_bitRead, fieldBitAddr_bfField_eq_leField hw hi hj] at hbf
  rw [fieldBit_eq_bitRead] at hle
  exact hbf.trans hle.symm

/-! ### The commands, one equation each (R161 to R165) -/

/-- A stream bit range check, as R250 writes it. -/
theorem ifInRange_bitsInRange (i w : Nat) (c : Instr) (s t : State) :
    ifInRange (bitsInRange i w) c s t = if 2048 < i + w then .next (s.afterFault 2#32 (encode c)) else .next t := by
  by_cases h : 2048 < i + w
  · rw [(bitsInRange_false_iff i w).mpr h, ifInRange_false, if_pos h]
    rfl
  · rw [(bitsInRange_iff i w).mpr (Nat.not_lt.mp h), ifInRange_true, if_neg h]

theorem exec_bfRd (bit : BitVec 11) (w : Nat) (s : State) :
    exec (.bfRd bit w) s =
      if 2048 < bit.toNat + w then .next (s.afterFault 2#32 (encode (.bfRd bit w)))
      else .next (loadField (bfField bit.toNat w) s) := ifInRange_bitsInRange ..

theorem exec_bfWr (bit : BitVec 11) (w : Nat) (s : State) :
    exec (.bfWr bit w) s =
      if 2048 < bit.toNat + w then .next (s.afterFault 2#32 (encode (.bfWr bit w)))
      else .next (storeField (bfField bit.toNat w) s) := ifInRange_bitsInRange ..

theorem exec_leRd (a : BitVec 8) (w : Nat) (s : State) :
    exec (.leRd a w) s =
      if 256 < a.toNat + nbytes w then .next (s.afterFault 2#32 (encode (.leRd a w)))
      else .next (loadField (leField a.toNat w) s) := ifInRange_bytesInRange ..

theorem exec_leWr (a : BitVec 8) (w : Nat) (s : State) :
    exec (.leWr a w) s =
      if 256 < a.toNat + nbytes w then .next (s.afterFault 2#32 (encode (.leWr a w)))
      else .next (storeField (leField a.toNat w) s) := ifInRange_bytesInRange ..

/-- BF.WR inside FB (R163). -/
theorem exec_bfWr_inRange {bit : BitVec 11} {w : Nat} (s : State) (h : bit.toNat + w ≤ 2048) :
    exec (.bfWr bit w) s = .next (storeField (bfField bit.toNat w) s) := by
  rw [exec_bfWr, if_neg (Nat.not_lt.mpr h)]

/-- LE.WR inside FB (R165). -/
theorem exec_leWr_inRange {a : BitVec 8} {w : Nat} (s : State) (h : a.toNat + nbytes w ≤ 256) :
    exec (.leWr a w) s = .next (storeField (leField a.toNat w) s) := by
  rw [exec_leWr, if_neg (Nat.not_lt.mpr h)]

/-! ### The statements on one command (R162 to R165) -/

/-- Settles O24: RES bit by bit, at the field's stream addresses. -/
theorem bfRdReadsTheStreamBits : Obligations.BfRdReadsTheStreamBits := by
  refine ⟨fun bit w s _ _ h => ?_, fun bit w s _ _ h => ?_, bfRd_format.rejectsReservedBits⟩
  · exact ⟨_, exec_bfRd_inRange s h, fun k hk => getLsbD_loadField_res (bfField bit.toNat w) s hk⟩
  · exact (exec_bfRd bit w s).trans (if_pos h)

/-- Settles O25: the store changes the field's bits of FB, and OVF. -/
theorem bfWrWritesTheStreamBits : Obligations.BfWrWritesTheStreamBits := by
  refine ⟨fun bit w s _ _ h => ?_, fun bit w s _ _ h => ?_, bfWr_format.rejectsReservedBits⟩
  · exact ⟨_, exec_bfWr_inRange s h, storeField_eq .., storesD_storeField (bfField bit.toNat w) s⟩
  · exact (exec_bfWr bit w s).trans (if_pos h)

/-- Settles O26: RES bit by bit, at the field's little-endian addresses. -/
theorem leRdReadsTheVectorBits : Obligations.LeRdReadsTheVectorBits := by
  refine ⟨fun a w s _ _ h => ?_, fun a w s _ _ h => ?_, leRd_format.rejectsReservedBits⟩
  · exact ⟨_, exec_leRd_inRange s h, fun k hk => getLsbD_loadField_res (leField a.toNat w) s hk⟩
  · exact (exec_leRd a w s).trans (if_pos h)

/-- Settles O27: the store changes the field's bits of FB, and OVF. -/
theorem leWrWritesTheVectorBits : Obligations.LeWrWritesTheVectorBits := by
  refine ⟨fun a w s _ _ h => ?_, fun a w s _ _ h => ?_, leWr_format.rejectsReservedBits⟩
  · exact ⟨_, exec_leWr_inRange s h, storeField_eq .., storesD_storeField (leField a.toNat w) s⟩
  · exact (exec_leWr a w s).trans (if_pos h)

/-! ### The laws on several commands (R166, R167) -/

/-- Settles O29: what was stored is D itself, as D fits the field. -/
theorem bitFieldRoundTrip : Obligations.BitFieldRoundTrip := by
  refine ⟨fun s bit w _ _ h hd => ?_, fun s a w _ _ h hd => ?_⟩
  · exact ⟨_, exec_bfWr_inRange s h, (exec_bfRd_inRange _ h).trans
      (congrArg _ (loadField_storeField (e := bfField bit.toNat w) hd))⟩
  · exact ⟨_, exec_leWr_inRange s h, (exec_leRd_inRange _ h).trans
      (congrArg _ (loadField_storeField (e := leField a.toNat w) hd))⟩

/-- Settles O30: ranges of stream bits, or of little-endian bits, that do not overlap share no stream bit. -/
theorem writingAFieldKeepsDisjointFields : Obligations.WritingAFieldKeepsDisjointFields := by
  refine ⟨fun s b c v w _ _ _ _ hb hc hapart => ?_, fun s a b v w _ _ _ _ ha hb hapart => ?_⟩
  · exact ⟨_, _, exec_bfWr_inRange s hb, exec_bfRd_inRange s hc, (exec_bfRd_inRange _ hc).trans
      (congrArg _ (loadField_storeField_of_disjoint s (bfField_disjoint hapart)))⟩
  · exact ⟨_, _, exec_leWr_inRange s ha, exec_leRd_inRange s hb, (exec_leRd_inRange _ hb).trans
      (congrArg _ (loadField_storeField_of_disjoint s (leField_disjoint hapart)))⟩

/-- Settles O31: the state between is `fetchField`, whose D is the value that the field holds. -/
theorem writingBackWhatWasReadKeepsFB : Obligations.WritingBackWhatWasReadKeepsFB := by
  refine ⟨fun s bit w _ hw h => ?_, fun s a w _ hw h => ?_⟩
  · exact ⟨_, fetchField (bfField bit.toNat w) s, _, exec_bfRd_inRange s h, rfl, exec_bfWr_inRange _ h,
      sameFB_storeField_fetchField s hw, status_storeField_fetchField ..⟩
  · exact ⟨_, fetchField (leField a.toNat w) s, _, exec_leRd_inRange s h, rfl, exec_leWr_inRange _ h,
      sameFB_storeField_fetchField s hw, status_storeField_fetchField ..⟩

/-- Settles O32: the two fields are the same stream bits. -/
theorem bothOrdersAgreeInsideOneByte : Obligations.BothOrdersAgreeInsideOneByte := by
  intro s a bit w _ hw hbit
  have hbf : bit.toNat + w ≤ 2048 := by omega
  have hle : a.toNat + nbytes w ≤ 256 := by rw [nbytes, if_pos hw]; omega
  refine ⟨⟨_, exec_bfRd_inRange s hbf, ?_⟩, _, _, exec_bfWr_inRange s hbf, exec_leWr_inRange s hle, ?_, ?_⟩
  · rw [exec_leRd_inRange s hle, bfRead_eq_leRead s hw hbit]
  · rw [storeField_eq (bfField bit.toNat w) s]
    exact storeField_eq (leField a.toNat w) s
  · exact sameFB_storeField_storeField rfl (fun _ hj => fieldBitAddr_bfField_eq_leField hw hbit hj)
      (fun _ _ => rfl) fun _ => rfl

/-! ### FLD.WR and R160 -/

/-- R196's valid codes and its unmapped codes are complements. -/
theorem unmapped_eq_codeUnmapped (e : Option Config.EnumTable) (v : Nat) : unmapped e v = codeUnmapped e v := by
  cases e with
  | none => rfl
  | some t =>
    rw [Bool.eq_iff_iff]
    cases t <;> simp [unmapped, enumCodes, codeUnmapped] <;> omega

/-- FLD.WR of a mapped value stores the field (R199). -/
theorem writeEntry_of_mapped {e : FieldEntry} {s : State} (h : codeUnmapped e.enum (truncated s e.width) = false) :
    writeEntry e s = storeField e s := by
  rw [writeEntry, toNat_writeValue, unmapped_eq_codeUnmapped, h]
  rfl

/-- FLD.WR of an unmapped code raises EERR and stores nothing (R197, R199). -/
theorem writeEntry_of_unmapped {e : FieldEntry} {s : State} (h : codeUnmapped e.enum (truncated s e.width) = true) :
    writeEntry e s = setStatusBit .eerr true (raiseFlag .ovf (overflows e.width s.d) s) := by
  rw [writeEntry, toNat_writeValue, unmapped_eq_codeUnmapped, h]
  rfl

theorem sameFB_writeEntry_of_unmapped {e : FieldEntry} {s : State}
    (h : codeUnmapped e.enum (truncated s e.width) = true) : SameFB s (writeEntry e s) := by
  intro a
  rw [writeEntry_of_unmapped h]
  exact readByte_congr (raiseFlag_fb ..) (raiseFlag_resets ..) a

theorem statusBit_ovf_writeEntry (e : FieldEntry) (s : State) :
    statusBit .ovf (writeEntry e s) = (statusBit .ovf s || tooWide s e.width) := by
  cases h : codeUnmapped e.enum (truncated s e.width) with
  | false => rw [writeEntry_of_mapped h, statusBit_ovf_storeField]
  | true =>
    rw [writeEntry_of_unmapped h, statusBit_setStatusBit, statusBit_raiseFlag, overflows_eq_tooWide]
    simp

/-- Neither the enum check nor the store sees D above the field. -/
theorem sameFB_writeEntry_truncated (e : FieldEntry) (s : State) :
    SameFB (writeEntry e s) (writeEntry e { s with d := BitVec.ofNat 16 (truncated s e.width) }) := by
  have hvalue : truncated { s with d := BitVec.ofNat 16 (truncated s e.width) } e.width = truncated s e.width := by
    rw [← toNat_writeValue, writeValue_truncated, toNat_writeValue]
  cases h : codeUnmapped e.enum (truncated s e.width) with
  | false =>
    rw [writeEntry_of_mapped h, writeEntry_of_mapped (hvalue.symm ▸ h)]
    exact sameFB_storeField_truncated e s
  | true =>
    intro a
    rw [sameFB_writeEntry_of_unmapped h a, sameFB_writeEntry_of_unmapped (hvalue.symm ▸ h) a]
    exact readByte_congr rfl rfl a

/-- Settles O33: FLD.WR of a mapped value is the same store as BF.WR and LE.WR, and of an unmapped one none. -/
theorem overflowIsStickyAndExact : Obligations.OverflowIsStickyAndExact := by
  refine ⟨fun s t bit w _ _ h hexec => ?_, fun s t a w _ _ h hexec => ?_, fun s t id e he hexec => ?_⟩
  · obtain rfl := Host.Outcome.next.inj ((exec_bfWr_inRange s h).symm.trans hexec)
    exact ⟨statusBit_ovf_storeField .., storesD_storeField (bfField bit.toNat w) s, _, exec_bfWr_inRange _ h,
      sameFB_storeField_truncated (bfField bit.toNat w) s⟩
  · obtain rfl := Host.Outcome.next.inj ((exec_leWr_inRange s h).symm.trans hexec)
    exact ⟨statusBit_ovf_storeField .., storesD_storeField (leField a.toNat w) s, _, exec_leWr_inRange _ h,
      sameFB_storeField_truncated (leField a.toNat w) s⟩
  · obtain rfl := Host.Outcome.next.inj ((exec_fldWr_assigned he).symm.trans hexec)
    refine ⟨statusBit_ovf_writeEntry e s, fun hmapped => ?_, _, exec_fldWr_assigned he,
      sameFB_writeEntry_truncated e s⟩
    rw [writeEntry_of_mapped hmapped]
    exact storesD_storeField e s

end Sys2Proof.Machine

/-! SUPPORT. Proofs of the statements of 43_field_schema.md: the schema ROM of every build, and the field commands, each
as one equation on an entry's field. -/

namespace Sys2Proof.Machine

open Config (FieldEntry)

/-! ### The schema ROM of every build (R190, R194, R195) -/

theorem schemaRom_widths (p : Config.Params) : ∀ e ∈ schemaRom p, 1 ≤ e.width ∧ e.width ≤ 16 := by
  obtain ⟨gap, dac⟩ := p
  cases gap <;> cases dac <;> decide

theorem schemaEntry_width_le {p : Config.Params} {id : BitVec 7} {e : FieldEntry} (h : schemaEntry p id = some e) :
    e.width ≤ 16 := (schemaRom_widths p e (List.mem_of_getElem? h)).2

theorem exists_schemaEntry (p : Config.Params) {id : BitVec 7} (h : id.toNat < 69) :
    ∃ e, schemaEntry p id = some e := by
  obtain ⟨hid, -⟩ | ⟨-, hsome⟩ := schemaEntry_cases p id
  · omega
  · exact hsome

theorem schemaEntry_eq_none (p : Config.Params) {id : BitVec 7} (h : 69 ≤ id.toNat) : schemaEntry p id = none := by
  obtain ⟨-, hnone⟩ | ⟨hid, -⟩ := schemaEntry_cases p id
  · exact hnone
  · omega

/-- R195: the other value of PWM_GAP_BIT replaces three entries of the ROM. -/
theorem schemaRom_gapZero (x : Config.DacLayout) :
    schemaRom ⟨.zero, x⟩ = (((schemaRom ⟨.two, x⟩).set 24 ⟨.bf, 197, 2, some .pwmmode⟩).set 31
      ⟨.bf, 253, 2, some .pwmmode⟩).set 38 ⟨.bf, 309, 2, some .pwmmode⟩ := rfl

/-- R194: the other DAC_LAYOUT replaces the ROM's last two entries. -/
theorem schemaRom_mcp48x2 (g : Config.PwmGapBit) :
    schemaRom ⟨g, .mcp48x2⟩ = ((schemaRom ⟨g, .contiguous⟩).set 67 ⟨.bf, 1923, 1, none⟩).set 68
      ⟨.bf, 1924, 10, none⟩ := rfl

/-- R195: the bit that PWM_GAP_BIT names is in no field. -/
theorem gapBit_in_no_entry (x : Config.DacLayout) : ∀ a ∈ [0x18, 0x1F, 0x26],
    (∀ e ∈ schemaRom ⟨.two, x⟩, fieldIndex e a 2 = none) ∧ ∀ e ∈ schemaRom ⟨.zero, x⟩, fieldIndex e a 0 = none := by
  cases x <;> decide

/-! ### The fields lie in FB one after the other, in the order of the ids (R192 to R194) -/

/-- The first stream bit of the bytes (LE) or bits (BF) that an entry spans. -/
def spanStart (e : FieldEntry) : Nat :=
  match e.kind with
  | .bf => e.operand
  | .le => 8 * e.operand

/-- The stream bit after the bytes (LE) or bits (BF) that an entry spans. -/
def spanStop (e : FieldEntry) : Nat :=
  match e.kind with
  | .bf => e.operand + e.width
  | .le => 8 * (e.operand + (e.width + 7) / 8)

theorem fieldBitAddr_in_span (e : FieldEntry) {j : Nat} (hj : j < e.width) :
    spanStart e ≤ fieldBitAddr e j ∧ fieldBitAddr e j < spanStop e := by
  obtain ⟨kind, operand, width, enum⟩ := e
  change j < width at hj
  cases kind <;> simp only [spanStart, spanStop, fieldBitAddr] <;> omega

/-- A field whose span ends before the other's starts. -/
theorem fieldsDisjoint_of_span {e f : FieldEntry} (h : spanStop e ≤ spanStart f) : FieldsDisjoint e f := by
  intro j hj k hk
  have hbefore : fieldBitAddr e j < fieldBitAddr f k :=
    (fieldBitAddr_in_span e hj).2.trans_le (h.trans (fieldBitAddr_in_span f hk).1)
  exact hbefore.ne

theorem FieldsDisjoint.symm {e f : FieldEntry} (h : FieldsDisjoint e f) : FieldsDisjoint f e :=
  fun j hj k hk heq => h k hk j hj heq.symm

theorem schemaRom_spans_ascend (p : Config.Params) :
    (schemaRom p).Pairwise fun e f => spanStop e ≤ spanStart f := by
  obtain ⟨gap, dac⟩ := p
  cases gap <;> cases dac <;> decide

theorem fieldsDisjoint_of_id_lt {p : Config.Params} {i j : BitVec 7} {e f : FieldEntry}
    (hi : schemaEntry p i = some e) (hj : schemaEntry p j = some f) (hlt : i.toNat < j.toNat) : FieldsDisjoint e f := by
  obtain ⟨hilt, rfl⟩ := List.getElem?_eq_some_iff.mp hi
  obtain ⟨hjlt, rfl⟩ := List.getElem?_eq_some_iff.mp hj
  exact fieldsDisjoint_of_span (List.pairwise_iff_getElem.mp (schemaRom_spans_ascend p) _ _ hilt hjlt hlt)

/-- R200 (b): two ids' fields share no stream bit. -/
theorem schemaEntry_disjoint {p : Config.Params} {i j : BitVec 7} {e f : FieldEntry} (hi : schemaEntry p i = some e)
    (hj : schemaEntry p j = some f) (hne : i ≠ j) : FieldsDisjoint e f := by
  obtain hlt | hlt := Nat.lt_or_gt_of_ne fun h => hne (BitVec.eq_of_toNat_eq h)
  · exact fieldsDisjoint_of_id_lt hi hj hlt
  · exact (fieldsDisjoint_of_id_lt hj hi hlt).symm

/-! ### FLD.RD of an entry (R197, R198) -/

/-- EERR is bit 4 of STATUS (R27). -/
theorem raiseFlag_eerr (v : Bool) (s : State) :
    raiseFlag .eerr v s = { s with status := setIf v 0x00000010#32 s.status } := by
  cases v <;> rfl

@[simp] theorem readEntry_res (e : FieldEntry) (s : State) : (readEntry e s).res = (loadField e s).res :=
  raiseFlag_res ..

/-- RES holds the whole code of a field of at most 16 bits. -/
theorem toNat_loadField_res {e : FieldEntry} (s : State) (hw : e.width ≤ 16) :
    (loadField e s).res.toNat = (fieldRead s e).toNat := by
  have hfits : (fieldRead s e).toNat < 2 ^ 16 := (fieldRead s e).isLt.trans_le (Nat.pow_le_pow_right two_pos hw)
  rw [loadField, BitVec.toNat_setWidth, Nat.mod_eq_of_lt hfits]

/-- FLD.RD loads the field, and raises EERR for the code that it put in RES. -/
theorem readEntry_eq {e : FieldEntry} (s : State) (hw : e.width ≤ 16) :
    readEntry e s = { s with
      res := (loadField e s).res
      status := setIf (codeUnmapped e.enum (loadField e s).res.toNat) 0x00000010#32 s.status } := by
  rw [toNat_loadField_res s hw, readEntry, unmapped_eq_codeUnmapped, raiseFlag_eerr]
  rfl

theorem statusBit_eerr_readEntry {e : FieldEntry} (s : State) (hw : e.width ≤ 16) :
    statusBit .eerr (readEntry e s) =
      (statusBit .eerr s || codeUnmapped e.enum (readEntry e s).res.toNat) := by
  rw [readEntry_res, toNat_loadField_res s hw, readEntry, statusBit_raiseFlag, unmapped_eq_codeUnmapped]
  simp [statusBit]

/-- FLD.RD of a field whose code is mapped changes RES alone. -/
theorem exec_fldRd_mapped {s : State} {id : BitVec 7} {e : FieldEntry} {r : Half}
    (he : schemaEntry s.params id = some e) (hr : (loadField e s).res = r)
    (hmapped : codeUnmapped e.enum r.toNat = false) : exec (.fldRd id) s = .next { s with res := r } := by
  rw [exec_fldRd_assigned he, readEntry_eq s (schemaEntry_width_le he), hr, hmapped]
  rfl

/-! ### FLD.WR of an entry (R197, R199) -/

theorem writeEntry_fb_of_unmapped {e : FieldEntry} {s : State}
    (h : codeUnmapped e.enum (truncated s e.width) = true) : (writeEntry e s).fb = s.fb := by
  rw [writeEntry_of_unmapped h, setStatusBit_fb, raiseFlag_fb]

/-- FLD.WR changes FB, and OVF and EERR of STATUS, and nothing else. -/
theorem writeEntry_eq (e : FieldEntry) (s : State) :
    writeEntry e s = { s with
      fb := (writeEntry e s).fb
      status := setIf (codeUnmapped e.enum (truncated s e.width)) 0x00000010#32
        (setIf (tooWide s e.width) 0x00000020#32 s.status) } := by
  cases h : codeUnmapped e.enum (truncated s e.width) with
  | false =>
    rw [writeEntry_of_mapped h]
    exact storeField_eq e s
  | true =>
    rw [writeEntry_fb_of_unmapped h, writeEntry_of_unmapped h, raiseFlag_ovf, overflows_eq_tooWide]
    rfl

theorem statusBit_eerr_writeEntry (e : FieldEntry) (s : State) :
    statusBit .eerr (writeEntry e s) = (statusBit .eerr s || codeUnmapped e.enum (truncated s e.width)) := by
  cases h : codeUnmapped e.enum (truncated s e.width) with
  | false =>
    rw [writeEntry_of_mapped h, storeField, statusBit_congr (fieldWrite_status ..), statusBit_raiseFlag]
    simp
  | true =>
    rw [writeEntry_of_unmapped h, statusBit_setStatusBit, if_pos rfl, Bool.or_true]

theorem fieldRead_of_sameFB {s t : State} (h : SameFB s t) (e : FieldEntry) : fieldRead t e = fieldRead s e := by
  refine BitVec.eq_of_getLsbD_eq fun k hk => ?_
  rw [getLsbD_fieldRead _ e hk, getLsbD_fieldRead _ e hk, fieldBit_eq_bitRead, fieldBit_eq_bitRead, bitRead, bitRead, h]

/-- FLD.WR keeps the value of every field that shares no stream bit with its own. -/
theorem fieldRead_writeEntry_of_disjoint {e f : FieldEntry} (s : State) (h : FieldsDisjoint e f) :
    fieldRead (writeEntry e s) f = fieldRead s f := by
  cases hcode : codeUnmapped e.enum (truncated s e.width) with
  | false => rw [writeEntry_of_mapped hcode, fieldRead_storeField_of_disjoint s h]
  | true => exact fieldRead_of_sameFB (sameFB_writeEntry_of_unmapped hcode) f

/-! ### Fields inside one byte (R8, R167) -/

/-- An LE field of at most 8 bits is the low bits of its byte. -/
theorem leRead_in_byte (s : State) (a : Nat) {w : Nat} (hw : w ≤ 8) :
    leRead s a w = (readByte s a).extractLsb' 0 w := by
  refine BitVec.eq_of_getLsbD_eq fun k hk => ?_
  rw [getLsbD_leRead s a w k hk, leBit, BitVec.getLsbD_extractLsb', decide_eq_true hk, Bool.true_and, Nat.zero_add,
    Nat.div_eq_of_lt (by omega), Nat.mod_eq_of_lt (by omega), Nat.add_zero]

/-- A BF field that ends `lo` bits before its byte does is the byte's bits from `lo` up. -/
theorem bfRead_in_byte (s : State) {a i w lo : Nat} (hi : i + w + lo = 8 * a + 8) (hw : w + lo ≤ 8) :
    bfRead s i w = (readByte s a).extractLsb' lo w := by
  refine BitVec.eq_of_getLsbD_eq fun k hk => ?_
  rw [getLsbD_bfRead s i w k hk, BitVec.getLsbD_extractLsb', decide_eq_true hk, Bool.true_and,
    readByte_getLsbD s a _ (by omega), show i + (w - 1 - k) = 8 * a + (7 - (lo + k)) by omega]

/-- Id 57, IN.GPIO_IN (R193). -/
theorem loadField_gpioIn (s : State) :
    (loadField (leField 0x97 4) s).res = ((readByte s 0x97).extractLsb' 0 4).setWidth 16 :=
  congrArg (BitVec.setWidth 16) (leRead_in_byte s 0x97 (w := 4) (by decide))

/-- Id 45, IN.ERRCODE: the high half of byte 0x83 (R193). -/
theorem loadField_errcode (s : State) :
    (loadField (FieldEntry.coded (bfField 1048 4) .errcode) s).res = ((readByte s 0x83).extractLsb' 4 4).setWidth 16 :=
  congrArg (BitVec.setWidth 16) (bfRead_in_byte s (a := 0x83) (i := 1048) (w := 4) (lo := 4) (by decide) (by decide))

/-- Id 46, IN.RUN: the lowest bit of byte 0x83 (R193). -/
theorem loadField_run (s : State) :
    (loadField (bfField 1055 1) s).res = ((readByte s 0x83).extractLsb' 0 1).setWidth 16 :=
  congrArg (BitVec.setWidth 16) (bfRead_in_byte s (a := 0x83) (i := 1055) (w := 1) (lo := 0) (by decide) (by decide))

/-! ### The statements -/

/-- Settles O37: RES is the loaded field, whose code decides EERR; only an assigned id has an entry. -/
theorem fldRdReadsTheSchemaField : Obligations.FldRdReadsTheSchemaField := by
  refine ⟨fun id s hid => ?_, fun id s hid => ?_, fldRd_format.rejectsReservedBits⟩
  · obtain ⟨e, he⟩ := exists_schemaEntry s.params hid
    refine ⟨e, (loadField e s).res, he, ?_, fun k hk => getLsbD_loadField_res e s hk⟩
    rw [exec_fldRd_assigned he, readEntry_eq s (schemaEntry_width_le he)]
  · exact exec_fldRd_unassigned (schemaEntry_eq_none s.params hid)

/-- Settles O38: the store of a mapped value is that of `storeField`, and an unmapped one stores nothing. -/
theorem fldWrWritesTheSchemaField : Obligations.FldWrWritesTheSchemaField := by
  refine ⟨fun id s hid => ?_, fun id s hid => ?_, fldWr_format.rejectsReservedBits⟩
  · obtain ⟨e, he⟩ := exists_schemaEntry s.params hid
    refine ⟨e, writeEntry e s, he, exec_fldWr_assigned he, writeEntry_eq e s, writeEntry_fb_of_unmapped,
      fun hmapped => ?_⟩
    rw [writeEntry_of_mapped hmapped]
    exact storesD_storeField e s
  · exact exec_fldWr_unassigned (schemaEntry_eq_none s.params hid)

/-- Settles O39: EERR after each command is EERR before, or the code's being unmapped; FAULT, CAUSE and FCMD are not
among what a field command writes. -/
theorem enumFailureIsLoudButNoFault : Obligations.EnumFailureIsLoudButNoFault := by
  intro s id e he
  have hw := schemaEntry_width_le he
  have hread := statusBit_eerr_readEntry s hw
  have hwrite := statusBit_eerr_writeEntry e s
  have hreadOwn := readEntry_writesOnlyItsOwn id e s
  have hwriteOwn := writeEntry_writesOnlyItsOwn id e s
  refine ⟨readEntry e s, writeEntry e s, exec_fldRd_assigned he, exec_fldWr_assigned he, fun hcode => ?_,
    fun k hk => ?_, fun hcode => ⟨?_, sameFB_writeEntry_of_unmapped hcode⟩, fun hset => ⟨?_, ?_⟩,
    ⟨hreadOwn.halted_eq, hreadOwn.cause, hreadOwn.fcmd⟩, ⟨hwriteOwn.halted_eq, hwriteOwn.cause, hwriteOwn.fcmd⟩⟩
  · rw [hread, hcode, Bool.or_true]
  · rw [readEntry_res, getLsbD_loadField_res e s (hk.trans_le hw), decide_eq_true hk, Bool.true_and]
  · rw [hwrite, hcode, Bool.or_true]
  · rw [hread, hset, Bool.true_or]
  · rw [hwrite, hset, Bool.true_or]

/-- Settles O40: D fits the field, so it is stored whole, raises no OVF and is read back with a mapped code. -/
theorem fieldRoundTrip : Obligations.FieldRoundTrip := by
  intro s id e he hfits hmapped
  have htruncated : truncated s e.width = s.d.toNat := Nat.mod_eq_of_lt hfits
  have hstore : writeEntry e s = storeField e s := writeEntry_of_mapped (htruncated.symm ▸ hmapped)
  have hnarrow : tooWide s e.width = false := by
    rw [tooWide, decide_eq_false (Nat.not_le.mpr hfits), Bool.and_false]
  have hparams : (storeField e s).params = s.params := by rw [storeField_eq]
  refine ⟨storeField e s, hstore ▸ exec_fldWr_assigned he, ?_, ?_⟩
  · rw [storeField_eq, hnarrow]
    rfl
  · refine exec_fldRd_mapped (hparams.symm ▸ he) ?_ hmapped
    rw [loadField_storeField hfits]

/-- Settles O41: the two entries' spans do not overlap, as the ROM lists its fields in the order of FB. -/
theorem distinctFieldsNeverShareABit : Obligations.DistinctFieldsNeverShareABit := by
  intro s i j hne hi hj
  obtain ⟨e, he⟩ := exists_schemaEntry s.params hi
  obtain ⟨f, hf⟩ := exists_schemaEntry s.params hj
  have hparams : (writeEntry e s).params = s.params := (writeEntry_writesOnlyItsOwn i e s).params
  refine ⟨_, _, _, exec_fldWr_assigned he, exec_fldRd_assigned hf, exec_fldRd_assigned (hparams.symm ▸ hf), ?_⟩
  rw [readEntry_res, readEntry_res, loadField, loadField,
    fieldRead_writeEntry_of_disjoint s (schemaEntry_disjoint he hf hne)]

/-- Settles O34: the bounds are those of `entryInsideFB`, by kind. -/
theorem schemaEntriesLieInsideFB : Obligations.SchemaEntriesLieInsideFB := by
  refine fun p => ⟨schemaRom_length p, fun e he => ?_, fun id => ?_⟩
  · obtain ⟨hpos, hwidth⟩ := schemaRom_widths p e he
    have hinside := List.all_eq_true.mp (schemaRom_insideFB p) e he
    refine ⟨hpos, hwidth, ?_⟩
    obtain ⟨kind, operand, width, enum⟩ := e
    cases kind with
    | bf => exact of_decide_eq_true hinside
    | le => exact of_decide_eq_true (Bool.and_eq_true_iff.mp hinside).2
  · obtain ⟨hid, hnone⟩ | ⟨hid, e, hsome⟩ := schemaEntry_cases p id
    · rw [hnone, decide_eq_false (Nat.not_lt.mpr hid), Option.isSome_none]
    · rw [hsome, decide_eq_true hid, Option.isSome_some]

/-- Settles O35: the ROMs of the two values differ in the three replaced entries. -/
theorem pwmGapBitMovesTheModeFieldsOnly : Obligations.PwmGapBitMovesTheModeFieldsOnly := by
  refine ⟨rfl, fun _ => ⟨rfl, rfl, rfl, rfl, rfl, rfl⟩, fun x id h24 h31 h38 => ?_, gapBit_in_no_entry⟩
  rw [schemaEntry, schemaEntry, schemaRom_gapZero, List.getElem?_set_ne (by bv_omega),
    List.getElem?_set_ne (by bv_omega), List.getElem?_set_ne (by bv_omega)]

/-- Settles O36: the ROMs of the two layouts differ in the two replaced entries. -/
theorem dacLayoutMovesTwoFieldsOnly : Obligations.DacLayoutMovesTwoFieldsOnly := by
  refine ⟨rfl, fun _ => ⟨rfl, rfl, rfl, rfl, rfl, rfl⟩, fun g id hid => ?_⟩
  rw [schemaEntry, schemaEntry, schemaRom_mcp48x2, List.getElem?_set_ne (by omega), List.getElem?_set_ne (by omega)]

/-- Settles O42: each field is some bits of its byte, and their codes are mapped. -/
theorem bitOrderFidelity : Obligations.BitOrderFidelity := by
  refine fun s => ⟨fun hbyte => ?_, fun hbyte => ⟨?_, ?_⟩, fun hbyte => ⟨?_, ?_⟩⟩
  · exact exec_fldRd_mapped (e := leField 0x97 4) rfl (by rw [loadField_gpioIn, hbyte]; rfl) rfl
  · exact exec_fldRd_mapped (e := FieldEntry.coded (bfField 1048 4) .errcode) rfl
      (by rw [loadField_errcode, hbyte]; rfl) rfl
  · exact exec_fldRd_mapped (e := bfField 1055 1) rfl (by rw [loadField_run, hbyte]; rfl) rfl
  · exact exec_fldRd_mapped (e := FieldEntry.coded (bfField 1048 4) .errcode) rfl
      (by rw [loadField_errcode, hbyte]; rfl) rfl
  · exact exec_fldRd_mapped (e := bfField 1055 1) rfl (by rw [loadField_run, hbyte]; rfl) rfl

end Sys2Proof.Machine

/-! SUPPORT. Proofs of the statements of 44_frame.md. Header and data are two segments of one kind: some bytes, then
their CRC, low byte first. What a change of FB does to the check of a segment is said once, for both. -/

namespace Sys2Proof.Machine

open Config (FieldEntry)

/-! ### The CRC of bytes of which one differs (R110) -/

theorem crc16_injective (bytes : List Byte) : Function.Injective (crc16 bytes) := by
  induction bytes with
  | nil => exact Function.injective_id
  | cons b rest ih => exact fun c d h => crcStepIsInvertible.1 b c d (ih h)

/-- FB reads differently at `b`, and the same at every other address. -/
def DiffersOnlyAt (b : Nat) (s t : State) : Prop := readByte t b ≠ readByte s b ∧ ∀ c ≠ b, readByte t c = readByte s c

/-- A CRC tells two ranges apart that differ in one byte: that step gives two values, and each later step keeps two
values apart. -/
theorem crc16_ne_of_differsOnlyAt {s t : State} {a n b : Nat} (c : Half) (h : DiffersOnlyAt b s t) (hlow : a ≤ b)
    (hhigh : b < a + n) : crc16 (fbBytes t a n) c ≠ crc16 (fbBytes s a n) c := by
  induction n generalizing a c with
  | zero => omega
  | succ k ih =>
    obtain ⟨hbyte, hothers⟩ := h
    simp only [fbBytes, crc16]
    by_cases hb : b = a
    · subst hb
      have htail : fbBytes t (b + 1) k = fbBytes s (b + 1) k := fbBytes_congr fun i hi _ => hothers i (by omega)
      rw [htail]
      exact fun heq => hbyte (crcStepIsInvertible.2 _ _ _ (crc16_injective _ heq))
    · rw [hothers a (Ne.symm hb)]
      exact ih _ (by omega) (by omega)

theorem differsOnlyAt_flip (s : State) (a : Nat) {k : Nat} (hk : k < 8) :
    DiffersOnlyAt a s (writeByte a (readByte s a ^^^ BitVec.twoPow 8 k) s) := by
  refine ⟨fun h => ?_, fun b hb => ?_⟩
  · rw [readByte_writeByte, if_pos rfl] at h
    have hbit := congrArg (·.getLsbD k) h
    simp [hk] at hbit
  · rw [readByte_writeByte, if_neg hb]

/-! ### A segment and its stored CRC (R230) -/

/-- The CRC of the `n` bytes at `a`, from 0xFFFF. -/
def segmentCrc (s : State) (a n : Nat) : Half := crc16 (fbBytes s a n) Config.crcInit

/-- The CRC stored behind the `n` bytes at `a` is not theirs. -/
def segmentMismatch (s : State) (a n : Nat) : Bool := decide (storedHalf s (a + n) ≠ segmentCrc s a n)

theorem segmentCrc_congr {s t : State} {a n : Nat} (h : ∀ b, a ≤ b → b < a + n → readByte t b = readByte s b) :
    segmentCrc t a n = segmentCrc s a n := by
  rw [segmentCrc, fbBytes_congr h, segmentCrc]

/-- The check of a segment depends on its bytes and its stored CRC alone. -/
theorem segmentMismatch_congr {s t : State} {a n : Nat}
    (h : ∀ b, a ≤ b → b < a + n + 2 → readByte t b = readByte s b) : segmentMismatch t a n = segmentMismatch s a n := by
  have hcrc : segmentCrc t a n = segmentCrc s a n := segmentCrc_congr fun b hlow hhigh => h b hlow (by omega)
  have hstored : storedHalf t (a + n) = storedHalf s (a + n) := by
    rw [storedHalf, storedHalf, h (a + n) (by omega) (by omega), h (a + n + 1) (by omega) (by omega)]
  rw [segmentMismatch, hcrc, hstored, segmentMismatch]

theorem segmentMismatch_eq_false_iff (s : State) (a n : Nat) :
    segmentMismatch s a n = false ↔ storedHalf s (a + n) = segmentCrc s a n := by
  simp [segmentMismatch]

/-- R233 (d): a clean segment does not check any more once one of its bytes differs. -/
theorem segmentMismatch_of_differsOnlyAt {s t : State} {a n b : Nat} (hclean : segmentMismatch s a n = false)
    (h : DiffersOnlyAt b s t) (hlow : a ≤ b) (hhigh : b < a + n) : segmentMismatch t a n = true := by
  have hstored : storedHalf t (a + n) = storedHalf s (a + n) := by
    rw [storedHalf, storedHalf, h.2 (a + n) (by omega), h.2 (a + n + 1) (by omega)]
  refine decide_eq_true ?_
  rw [hstored, (segmentMismatch_eq_false_iff s a n).mp hclean]
  exact (crc16_ne_of_differsOnlyAt _ h hlow hhigh).symm

/-! ### The model's segments are the rules' (R230) -/

theorem frameBase_eq_baseOf (f : Frame) : frameBase f = baseOf f := by cases f <;> rfl

theorem hcalc_eq_segmentCrc (s : State) (f : Frame) : hcalc s f = segmentCrc s (baseOf f) 7 := by
  rw [hcalc, ← crc16_eq_foldl, ← fbBytes_eq_bytesAt, segmentCrc, Config.crcInit]

theorem dcalc_eq_segmentCrc (s : State) (f : Frame) : dcalc s f = segmentCrc s (baseOf f + 9) 100 := by
  rw [dcalc, ← crc16_eq_foldl, ← fbBytes_eq_bytesAt, segmentCrc, Config.crcInit]

theorem headerCrc_eq_hcalc (s : State) (f : Frame) : headerCrc s f = hcalc s f := by
  rw [headerCrc, frameBase_eq_baseOf, hcalc_eq_segmentCrc, segmentCrc, Config.hdrLen]

theorem dataCrc_eq_dcalc (s : State) (f : Frame) : dataCrc s f = dcalc s f := by
  rw [dataCrc, dataAt, frameBase_eq_baseOf, dcalc_eq_segmentCrc, segmentCrc, Config.hdrLen, Config.dataLen]

theorem headerCrcAt_eq (f : Frame) : headerCrcAt f = baseOf f + 7 := by
  rw [headerCrcAt, frameBase_eq_baseOf, Config.hdrLen]

theorem dataCrcAt_eq (f : Frame) : dataCrcAt f = baseOf f + 109 := by
  rw [dataCrcAt, frameBase_eq_baseOf, Config.hdrLen, Config.dataLen]

theorem headerMismatch_eq_segmentMismatch (s : State) (f : Frame) :
    headerMismatch s f = segmentMismatch s (baseOf f) 7 := by
  rw [headerMismatch, headerCrcAt_eq, headerCrc_eq_hcalc, hcalc_eq_segmentCrc]
  rfl

theorem dataMismatch_eq_segmentMismatch (s : State) (f : Frame) :
    dataMismatch s f = segmentMismatch s (baseOf f + 9) 100 := by
  rw [dataMismatch, dataCrcAt_eq, dataCrc_eq_dcalc, dcalc_eq_segmentCrc]
  rfl

/-! ### FR.STAMP (R231) -/

/-- The state that FR.STAMP answers. -/
def stampFrame (f : Frame) (s : State) : State :=
  { memWrite2 (baseOf f + 109) (dcalc s f) (memWrite2 (baseOf f + 7) (hcalc s f) s) with crc := dcalc s f }

theorem exec_frStamp (f : Frame) (s : State) : exec (.frStamp f) s = .next (stampFrame f s) := by
  rw [exec, execFrStamp, headerCrcAt_eq, dataCrcAt_eq, headerCrc_eq_hcalc, dataCrc_eq_dcalc, stampFrame]

theorem stampFrame_eq (f : Frame) (s : State) :
    stampFrame f s = { s with fb := (stampFrame f s).fb, crc := dcalc s f } := by
  apply State.ext <;> simp [stampFrame]

/-- CRC is not seen in a byte of FB. -/
theorem readByte_of_crc (c : Half) (s : State) (b : Nat) : readByte { s with crc := c } b = readByte s b := rfl

/-- Every byte of FB after FR.STAMP: its four stores go to four addresses. -/
theorem readByte_stampFrame (f : Frame) (s : State) (b : Nat) :
    readByte (stampFrame f s) b =
      if b = baseOf f + 7 then (hcalc s f).extractLsb' 0 8
      else if b = baseOf f + 8 then (hcalc s f).extractLsb' 8 8
      else if b = baseOf f + 109 then (dcalc s f).extractLsb' 0 8
      else if b = baseOf f + 110 then (dcalc s f).extractLsb' 8 8 else readByte s b := by
  rw [stampFrame, readByte_of_crc, readByte_memWrite2, readByte_memWrite2]
  grind

/-- `b` is one of the four bytes of a frame's stored CRCs. -/
def IsCrcByte (f : Frame) (b : Nat) : Prop :=
  b = baseOf f + 7 ∨ b = baseOf f + 8 ∨ b = baseOf f + 109 ∨ b = baseOf f + 110

/-- R233 (b): FR.STAMP writes the four CRC bytes of its frame only. -/
theorem readByte_stampFrame_of_not_crcByte {f : Frame} (s : State) {b : Nat} (h : ¬ IsCrcByte f b) :
    readByte (stampFrame f s) b = readByte s b := by
  simp only [IsCrcByte, not_or] at h
  obtain ⟨h7, h8, h109, h110⟩ := h
  rw [readByte_stampFrame, if_neg h7, if_neg h8, if_neg h109, if_neg h110]

/-- No CRC byte is in a segment, so the stamp keeps what it was computed from. -/
theorem hcalc_stampFrame (f : Frame) (s : State) : hcalc (stampFrame f s) f = hcalc s f := by
  rw [hcalc_eq_segmentCrc, hcalc_eq_segmentCrc]
  exact segmentCrc_congr fun b _ _ => readByte_stampFrame_of_not_crcByte s (by unfold IsCrcByte; omega)

theorem dcalc_stampFrame (f : Frame) (s : State) : dcalc (stampFrame f s) f = dcalc s f := by
  rw [dcalc_eq_segmentCrc, dcalc_eq_segmentCrc]
  exact segmentCrc_congr fun b _ _ => readByte_stampFrame_of_not_crcByte s (by unfold IsCrcByte; omega)

theorem storedHalf_header_stampFrame (f : Frame) (s : State) :
    storedHalf (stampFrame f s) (baseOf f + 7) = hcalc s f := by
  rw [storedHalf, readByte_stampFrame, readByte_stampFrame]
  simp [append_extractLsb'_eq (n := 8) (m := 8)]

theorem storedHalf_data_stampFrame (f : Frame) (s : State) :
    storedHalf (stampFrame f s) (baseOf f + 109) = dcalc s f := by
  rw [storedHalf, readByte_stampFrame, readByte_stampFrame]
  simp [append_extractLsb'_eq (n := 8) (m := 8)]

theorem header_clean_stampFrame (f : Frame) (s : State) : segmentMismatch (stampFrame f s) (baseOf f) 7 = false := by
  rw [segmentMismatch_eq_false_iff, storedHalf_header_stampFrame, ← hcalc_eq_segmentCrc, hcalc_stampFrame]

theorem data_clean_stampFrame (f : Frame) (s : State) :
    segmentMismatch (stampFrame f s) (baseOf f + 9) 100 = false := by
  rw [segmentMismatch_eq_false_iff, storedHalf_data_stampFrame, ← dcalc_eq_segmentCrc, dcalc_stampFrame]

/-! ### FR.CHECK (R232) -/

theorem exec_frCheck (f : Frame) (s : State) :
    exec (.frCheck f) s =
      .next (reportFrame (segmentMismatch s (baseOf f) 7) (segmentMismatch s (baseOf f + 9) 100) (dcalc s f) s) := by
  rw [exec, execFrCheck, headerMismatch_eq_segmentMismatch, dataMismatch_eq_segmentMismatch, dataCrc_eq_dcalc]

/-- HCRC_ERR is bit 1 of STATUS and DCRC_ERR bit 2 (R27). -/
theorem reportFrame_eq (he de : Bool) (c : Half) (s : State) :
    reportFrame he de c s = { s with
      crc := c
      status := putIf de 0x00000004#32 (putIf he 0x00000002#32 s.status)
      res := (if he then 1#16 else 0#16) ||| (if de then 2#16 else 0#16) } := by
  cases he <;> cases de <;> rfl

/-- A clean report clears both flags: one mask. -/
theorem reportFrame_clean (c : Half) (s : State) :
    reportFrame false false c s =
      { s with crc := c, res := 0x0000#16, status := s.status &&& 0xFFFFFFF9#32 } := by
  have hmask : ~~~0x00000002#32 &&& ~~~0x00000004#32 = 0xFFFFFFF9#32 := by decide
  rw [reportFrame_eq, ← hmask, ← BitVec.and_assoc]
  rfl

/-! ### The schema's fields and the stored CRCs (R192, R193, R230) -/

/-- The two bytes at `a` are before or behind the bytes that the entry spans. -/
def SpanMisses (e : FieldEntry) (a : Nat) : Prop := spanStop e ≤ 8 * a ∨ 8 * (a + 2) ≤ spanStart e

theorem schemaRom_misses_crcs (p : Config.Params) (f : Frame) :
    ∀ e ∈ schemaRom p, SpanMisses e (baseOf f + 7) ∧ SpanMisses e (baseOf f + 109) := by
  obtain ⟨gap, dac⟩ := p
  unfold SpanMisses
  cases gap <;> cases dac <;> cases f <;> decide

/-- A field's value depends on the bytes that hold its bits alone. -/
theorem fieldRead_congr {s t : State} {e : FieldEntry}
    (h : ∀ j < e.width, readByte t (fieldBitAddr e j / 8) = readByte s (fieldBitAddr e j / 8)) :
    fieldRead t e = fieldRead s e := by
  refine BitVec.eq_of_getLsbD_eq fun j hj => ?_
  rw [getLsbD_fieldRead _ e hj, getLsbD_fieldRead _ e hj, fieldBit_eq_bitRead, fieldBit_eq_bitRead, bitRead, bitRead,
    h j hj]

/-- R233 (b): no field of the schema has a bit in a stored CRC. -/
theorem fieldRead_stampFrame {p : Config.Params} {id : BitVec 7} {e : FieldEntry} (he : schemaEntry p id = some e)
    (f : Frame) (s : State) : fieldRead (stampFrame f s) e = fieldRead s e := by
  obtain ⟨hheader, hdata⟩ := schemaRom_misses_crcs p f e (List.mem_of_getElem? he)
  refine fieldRead_congr fun j hj => readByte_stampFrame_of_not_crcByte s ?_
  obtain ⟨hstart, hstop⟩ := fieldBitAddr_in_span e hj
  unfold SpanMisses at hheader hdata
  unfold IsCrcByte
  omega

/-! ### The statements -/

/-- Settles O43: the bytes are those of the two little-endian stores, which do not overlap. -/
theorem frStampStoresBothCrcs : Obligations.FrStampStoresBothCrcs :=
  ⟨fun f s => ⟨stampFrame f s, exec_frStamp f s, stampFrame_eq f s, readByte_stampFrame f s⟩,
    frStamp_format.rejectsReservedBits⟩

/-- Settles O44: the mismatch of each segment is the rule's comparison. -/
theorem frCheckReportsBothSegments : Obligations.FrCheckReportsBothSegments := by
  refine ⟨fun f s => ?_, frCheck_format.rejectsReservedBits⟩
  rw [exec_frCheck, reportFrame_eq, segmentMismatch, segmentMismatch, ← hcalc_eq_segmentCrc, ← dcalc_eq_segmentCrc]
  simp only [decide_eq_true_eq]

/-- Settles O45: both segments of a stamped frame are clean, and CRC is the data CRC already. -/
theorem stampedFrameChecksClean : Obligations.StampedFrameChecksClean := by
  intro s f
  refine ⟨stampFrame f s, exec_frStamp f s, ?_⟩
  rw [exec_frCheck, header_clean_stampFrame, data_clean_stampFrame, reportFrame_clean, dcalc_stampFrame]
  rfl

/-- Settles O46: fields and retain blocks have no byte among the four, and a second stamp computes the same CRCs. -/
theorem stampTouchesNoFieldAndIsIdempotent : Obligations.StampTouchesNoFieldAndIsIdempotent := by
  intro s f
  refine ⟨stampFrame f s, exec_frStamp f s, fun id hid => ?_, fun a ha => ?_, stampFrame f (stampFrame f s),
    exec_frStamp f _, ?_, fun b => ?_⟩
  · obtain ⟨e, he⟩ := exists_schemaEntry s.params hid
    have hparams : (stampFrame f s).params = s.params := by rw [stampFrame_eq]
    refine ⟨_, _, exec_fldRd_assigned he, exec_fldRd_assigned (hparams.symm ▸ he), ?_⟩
    rw [readEntry_res, readEntry_res, loadField, loadField, fieldRead_stampFrame he]
  · refine readByte_stampFrame_of_not_crcByte s ?_
    cases f <;> simp only [IsCrcByte, baseOf] <;> omega
  · rw [stampFrame_eq f (stampFrame f s), dcalc_stampFrame]
    rfl
  · by_cases hb : IsCrcByte f b
    · rw [readByte_stampFrame f (stampFrame f s), hcalc_stampFrame, dcalc_stampFrame, readByte_stampFrame]
      rcases hb with rfl | rfl | rfl | rfl <;> simp
    · exact readByte_stampFrame_of_not_crcByte _ hb

/-- Settles O47: the flipped byte is in one segment, whose check fails, and not in the other, whose check stays clean. -/
theorem checkDetectsEverySingleBitError : Obligations.CheckDetectsEverySingleBitError := by
  intro s f a k hk
  have hflip := differsOnlyAt_flip (stampFrame f s) a hk
  refine ⟨stampFrame f s, _, exec_frStamp f s, exec_frCheck f _, fun hheader => ?_, fun hdata => ?_⟩
  · have hbad := segmentMismatch_of_differsOnlyAt (header_clean_stampFrame f s) hflip hheader.1 (by omega)
    have hclean := (segmentMismatch_congr fun b _ _ => hflip.2 b (by omega)).trans (data_clean_stampFrame f s)
    rw [hbad, hclean]
    exact ⟨rfl, statusBit_reportFrame .., statusBit_reportFrame ..⟩
  · have hbad := segmentMismatch_of_differsOnlyAt (data_clean_stampFrame f s) hflip hdata.1 (by omega)
    have hclean := (segmentMismatch_congr fun b _ _ => hflip.2 b (by omega)).trans (header_clean_stampFrame f s)
    rw [hbad, hclean]
    exact ⟨rfl, statusBit_reportFrame .., statusBit_reportFrame ..⟩

end Sys2Proof.Machine

/-! SUPPORT. Proofs of the statements of 60_exceptions.md: every step has a next state, which commands fault and with
which cause, and what the host can still do to a halted block. -/

namespace Sys2Proof.Machine

/-! ### Every host operation has a next state (R56, R251) -/

theorem busWrite_total (bits off : Nat) (w : Word) (s : State) : ∃ t, busWrite bits off w s = .next t := by
  unfold busWrite
  split
  · exact ⟨_, rfl⟩
  · exact regWrite_total ..
  · exact ⟨_, rfl⟩

theorem hostOp_total (op : HostOp) (s : State) : ∃ t, hostOp op s = .next t := by
  cases op with
  | write bits off w => exact busWrite_total bits off w s
  | read | reset => exact ⟨_, rfl⟩

/-- Settles O8: a step waits or takes one host operation. -/
theorem everyStepHasANextState : Obligations.EveryStepHasANextState := by
  intro s
  obtain ⟨-, hwaits⟩ | ⟨op, rest, -, htakes⟩ := step_cases s
  · exact ⟨s, hwaits⟩
  · rw [htakes]
    exact hostOp_total op _

/-! ### Which commands fault, and with which cause (R250, R253) -/

/-- R250's causes have the codes 1, 2 and 3 (R28). -/
theorem Cause.code_cases (c : Cause) : c.code = 1#32 ∨ c.code = 2#32 ∨ c.code = 3#32 := by
  cases c with
  | illegal => exact .inl rfl
  | range => exact .inr (.inl rfl)
  | badField => exact .inr (.inr rfl)

/-- No command has both checks: the field commands take their range from the schema. -/
theorem rangeFails_of_badFieldId {i : Instr} (h : badFieldId i = true) : rangeFails i = false := by
  cases i with
  | fldRd | fldWr => rfl
  | _ => exact absurd h Bool.false_ne_true

theorem exec_of_badFieldId {i : Instr} (s : State) (hbad : badFieldId i = true) :
    exec i s = .next (s.afterFault 3#32 (encode i)) := by
  obtain ⟨t, ht⟩ := exec_total i s
  obtain ⟨hgood, -, -⟩ | ⟨-, rfl⟩ := exec_outcome ht
  · cases hgood.symm.trans hbad
  · rw [ht, if_pos hbad, raiseFault_eq_afterFault, Cause.code]

theorem exec_of_rangeFails {i : Instr} (s : State) (hgood : badFieldId i = false) (hrange : rangeFails i = true) :
    exec i s = .next (s.afterFault 2#32 (encode i)) := by
  obtain ⟨t, ht⟩ := exec_total i s
  obtain ⟨-, hin, -⟩ | ⟨-, rfl⟩ := exec_outcome ht
  · cases hin.symm.trans hrange
  · rw [ht, hgood, if_neg Bool.false_ne_true, raiseFault_eq_afterFault, Cause.code]

theorem exec_of_checks_pass {i : Instr} (s : State) (hgood : badFieldId i = false) (hin : rangeFails i = false) :
    ∃ t, exec i s = .next t ∧ WritesOnlyItsOwn i s t := by
  obtain ⟨t, ht⟩ := exec_total i s
  obtain ⟨-, -, hwrites⟩ | ⟨hbad | hout, -⟩ := exec_outcome ht
  · exact ⟨t, ht, hwrites⟩
  · cases hgood.symm.trans hbad
  · cases hin.symm.trans hout

theorem commandPort_encode {i : Instr} {s : State} (hi : i.WellFormed) (hrun : halted s = false) :
    commandPort (encode i) s = exec i s := commandPort_runs hrun (decodeOfEncodeIsTheInstruction i hi)

/-- Everything the command port of a running block can do: enter the halted state with the word written, or complete
the command. -/
theorem commandPort_running_cases {w : Word} {s t : State} (hrun : halted s = false) (h : commandPort w s = .next t) :
    (∃ c, t = raiseFault c w s) ∨ ∃ i, decode w = .ok i ∧ WritesOnlyItsOwn i s t := by
  cases hdecode : decode w with
  | error e =>
    rw [commandPort_illegal hrun hdecode] at h
    exact .inl ⟨.illegal, (Host.Outcome.next.inj h).symm⟩
  | ok i =>
    rw [commandPort_runs hrun hdecode] at h
    obtain ⟨-, -, hwrites⟩ | ⟨-, ht⟩ := exec_outcome h
    · exact .inr ⟨i, rfl, hwrites⟩
    · obtain ⟨-, hencode⟩ := everyAcceptedWordEncodesItsCommand w i hdecode
      exact .inl ⟨_, hencode ▸ ht⟩

/-- Settles O48: a command that completes leaves FAULT as it was, so a block that halts has entered a fault. -/
theorem faultsArePrecise : Obligations.FaultsArePrecise := by
  intro s t w hrun h hhalted
  obtain ⟨c, rfl⟩ | ⟨i, -, hwrites⟩ := commandPort_running_cases hrun h
  · exact ⟨c.code, c.code_cases, rfl⟩
  · cases hrun.symm.trans (hwrites.halted_eq.symm.trans hhalted)

/-- Settles O49: the decoder's check comes first, and no command has both of the other two. -/
theorem faultCausesAndPriority : Obligations.FaultCausesAndPriority := by
  intro s w hrun
  refine ⟨fun hillegal => ?_, fun i hi hw => ?_⟩
  · obtain ⟨e, hdecode⟩ := (illegalWord_iff w).mp hillegal
    exact commandPort_illegal hrun hdecode
  · subst hw
    rw [commandPort_encode hi hrun]
    refine ⟨fun hbad => ⟨exec_of_badFieldId s hbad, rangeFails_of_badFieldId hbad⟩, fun hrange => ?_,
      fun hgood hin => ?_⟩
    · have hgood : badFieldId i = false := Bool.eq_false_iff.mpr fun hbad => by
        cases (rangeFails_of_badFieldId hbad).symm.trans hrange
      exact ⟨exec_of_rangeFails s hgood hrange, hgood⟩
    · obtain ⟨t, ht, hwrites⟩ := exec_of_checks_pass s hgood hin
      exact ⟨t, ht, hwrites.halted_eq.trans hrun, hwrites.cause, hwrites.fcmd⟩

/-! ### The halted block (R254, R255) -/

/-- Settles O50: the halted state matters to the command port alone, so the other accesses are those of R26, R27 and
R56 in every state. -/
theorem haltedBlockIgnoresCommands : Obligations.HaltedBlockIgnoresCommands := by
  intro s rest hhalted
  refine ⟨fun w hpending => ?_, fun off hpending v hmap => ?_, fun a ha hpending => ?_, fun w hpending => ?_,
    fun w hpending => ?_, fun w hpending => ?_, fun a w ha hpending => ?_⟩
  · rw [step_of_pending hpending]
    exact commandPort_halted (s := { s with pending := rest, response := .okay }) hhalted
  · obtain ⟨hread, -⟩ := registerAccessesFollowTheMap s off v 0 rest
    exact hread hpending hmap
  · have hwindow := busTarget_window (off := 0x100 + a) ⟨rfl, by omega, by omega⟩
    rw [step_read hpending, busRead_window s hwindow, Nat.add_sub_cancel_left]
  · obtain ⟨-, hwrite⟩ := registerAccessesFollowTheMap s 0x004 0 w rest
    obtain ⟨hd, -⟩ := hwrite hpending
    exact hd rfl
  · obtain ⟨-, hwrite⟩ := registerAccessesFollowTheMap s 0x00C 0 w rest
    obtain ⟨-, hcrc, -⟩ := hwrite hpending
    exact hcrc rfl
  · exact step_of_pending hpending
  · obtain ⟨-, hwrite⟩ := hostAccessRules s 8 (0x100 + a) w rest
    obtain ⟨-, hwindow, -⟩ := hwrite hpending
    rw [Nat.add_sub_cancel_left] at hwindow
    exact hwindow ⟨rfl, by omega, by omega⟩

/-- `t` is halted with the fault that `s` recorded. -/
def StaysHalted (s t : State) : Prop := halted t = true ∧ t.cause = s.cause ∧ t.fcmd = s.fcmd

theorem halted_clearStatusW1c (w : Word) (s : State) : halted (clearStatusW1c w s) = halted s :=
  (statusBit_clearStatusW1c w s .fault).trans (Bool.and_true _)

/-- Fault entry and commands need a running block; the other effects of a write leave FAULT, CAUSE and FCMD. -/
theorem WriteEffect.staysHalted {w : Word} {s t : State} (h : WriteEffect w s t) (hs : halted s = true) :
    StaysHalted s t := by
  cases h with
  | ignored | setsD | setsCrc | storesByte => exact ⟨hs, rfl, rfl⟩
  | clearsFlags => exact ⟨(halted_clearStatusW1c w s).trans hs, rfl, rfl⟩
  | illegal e hrun | command i t hrun => cases hrun.symm.trans hs

theorem hostOp_staysHalted {op : HostOp} {s t : State} (hop : op ≠ .reset) (hs : halted s = true)
    (h : hostOp op s = .next t) : StaysHalted s t := by
  cases op with
  | read bits off => exact Host.Outcome.next.inj h ▸ ⟨hs, rfl, rfl⟩
  | reset => exact absurd rfl hop
  | write bits off w =>
    obtain rfl | heffect := busWrite_effect h
    · exact ⟨hs, rfl, rfl⟩
    · exact heffect.staysHalted hs

/-- Settles O51, by the host's next operation: none, a reset, or another one. -/
theorem onlyResetLeavesTheHaltedState : Obligations.OnlyResetLeavesTheHaltedState := by
  intro s hs
  obtain ⟨t, ht⟩ := everyStepHasANextState s
  refine ⟨t, ht, fun ⟨rest, hpending⟩ => ?_, fun hother => ?_⟩
  · rw [step_of_pending hpending] at ht
    exact Host.Outcome.next.inj ht ▸ halted_takeReset _
  · obtain ⟨-, hwaits⟩ | ⟨op, rest, hpending, htakes⟩ := step_cases s
    · exact Host.Outcome.next.inj (hwaits.symm.trans ht) ▸ ⟨hs, rfl, rfl⟩
    · have hop : op ≠ .reset := fun hreset => hother ⟨rest, hreset ▸ hpending⟩
      exact hostOp_staysHalted (s := { s with pending := rest }) hop hs (htakes.symm.trans ht)

end Sys2Proof.Machine

/-! SUPPORT. Proof of the statement about the words of the rules' worked examples. -/

namespace Sys2Proof.Machine

/-- The decoder and the encoder are one relation between words and well-formed commands (O1, O2). -/
theorem decode_eq_ok_iff {w : Word} {i : Instr} : decode w = .ok i ↔ i.WellFormed ∧ encode i = w := by
  refine ⟨everyAcceptedWordEncodesItsCommand w i, ?_⟩
  rintro ⟨hi, rfl⟩
  exact decodeOfEncodeIsTheInstruction i hi

/-- Settles O5: each command's operands are in range, and the word is the command's layout by R81. -/
theorem specExampleWordsDecode : Obligations.SpecExampleWordsDecode := by
  unfold Obligations.SpecExampleWordsDecode
  and_intros <;> exact decode_eq_ok_iff.mpr ⟨by decide, rfl⟩

end Sys2Proof.Machine
